-- ==== Sys2Proof/Word.lean ====
section
/-! DEFINITION. The bus word and its bytes (20_memory.md R53, R57). -/

namespace Sys2Proof

/-- A bus data word: 32 bits (20_memory.md R53). -/
abbrev Word := BitVec 32

/-- One byte lane of a bus word (20_memory.md R57). -/
abbrev Byte := BitVec 8

end Sys2Proof
end

