-- ==== Sys2Proof/Config.lean ====
section
/-! DEFINITION. The parameters of an implementation (00_scope.md R6). The spec leaves each of them OPEN, so they are
data that every state carries unchanged, and claims hold for every value of them. No behaviour of this block is left
undefined by the spec, so there is no free value here. -/

namespace Sys2Proof

/-- The parameters of 00_scope.md R6. `NW`, `WR` and the word PARAM are computed from them
(`Sys2Proof.Machine.nw`, `wr`, `paramWord`).

DESIGN CHOICE (log 1): a constant part of the state, not one fixed number. Safe. -/
structure Config where
  /-- `M_MAX`, the largest field degree the block accepts; the spec bounds it by 1 and 8192. -/
  mMax : Nat
  /-- `BLOCK_BASE`, the bus address of register offset 0. DESIGN CHOICE (log 22): the spec gives a bus address no width,
  so it is a natural number and the window never wraps. Unsafe. -/
  blockBase : Nat
  /-- The entries of `REGISTRY_TABLE`, the host's finite partial map from a degree to a polynomial, beside 8 -> 0x11B, which
  every table holds (10_state.md R36; `Sys2Proof.Machine.registryTable`). Any further entries are legal (log 23). -/
  registryRest : List (Nat × Nat)
  deriving DecidableEq, Repr

/-- The reference test configuration of 00_scope.md R6, `M_MAX = 16`, with no registry entry but the one the source
implies (10_state.md R36).

DESIGN CHOICE (log 1): the base address 0 and no further registry entry. Unsafe only for a claim about this one configuration. -/
def Config.reference : Config :=
  { mMax := 16, blockBase := 0, registryRest := [] }

end Sys2Proof
end

