-- ==== Sys2Proof/Machine/Params.lean ====
section
/-! DEFINITION. What follows from the parameters (00_scope.md R6): the number of words and the width of a wide register,
the word PARAM, and the size of the register window. -/

namespace Sys2Proof.Machine

/-- `NW = ceil(2 * M_MAX / 32)`, the number of 32-bit words in each wide register (00_scope.md R6). -/
def nw (c : Config) : Nat := (2 * c.mMax + 31) / 32

/-- `WR = 32 * NW`, the width in bits of each wide register (00_scope.md R6). -/
def wr (c : Config) : Nat := 32 * nw c

/-- The constant register PARAM: bits 15:0 hold `M_MAX`, bits 31:16 hold `NW` (10_state.md R32). -/
def paramWord (c : Config) : Word := BitVec.ofNat 16 (nw c) ++ BitVec.ofNat 16 c.mMax

/-- The size in bytes of the register window (20_memory.md R50). -/
def windowSize : Nat := 0x3000

end Sys2Proof.Machine
end

