-- ==== Sys2Proof/Syntax.lean ====
section
/-! DEFINITION. The commands of the block, and the host's operations on it: bus accesses, host program lines and the
host notation of 30_encoding.md section 3. -/

namespace Sys2Proof

/-- The seven commands (30_encoding.md R71), one constructor per row of the opcode table. Operands are implicit (R73). -/
inductive Instr where
  /-- `add(m, a, b)` (41_add_sub.md R120). -/
  | add
  /-- `subtract(m, a, b)` (41_add_sub.md R121). -/
  | sub
  /-- `multiply(m, a, b)` (42_multiply.md R131). -/
  | mul
  /-- `divideWithRemainder(m, dividend, divisor)` (43_long_division.md R141). -/
  | divrem
  /-- `divide(m, dividend, divisor)` (45_invert_divide.md R166). -/
  | div
  /-- `moduloReduce(m, poly)` (44_modulo_reduce.md R151). -/
  | mod
  /-- `invert(m, a)` (45_invert_divide.md R161). -/
  | inv
  deriving DecidableEq, Repr

/-- The five wide registers (10_state.md R20). -/
inductive WideReg where
  | a
  | b
  | p
  | res
  | rem
  deriving DecidableEq, Repr

/-- One bus access to a bus address, of a width in bytes (20_memory.md R53). Ill-formed accesses are syntax too: the
block answers them with a bus error. DESIGN CHOICE (log 22): a bus address is a natural number, since the spec gives it
no width. Unsafe. -/
inductive BusAccess where
  | read (addr width : Nat)
  | write (addr width : Nat) (v : Word)
  deriving DecidableEq, Repr

/-- A value in a host line: a constant or a host temporary (30_encoding.md R75, R76). -/
inductive HostVal where
  | const (v : Nat)
  | temp (t : Nat)
  deriving DecidableEq, Repr

/-- Host arithmetic (30_encoding.md R75, `tN <- expr`), with the operators of 00_scope.md R9 and the `+` of program P4.

DESIGN CHOICE (log 9): R75 does not list the operators. Unsafe for a claim about a host program that uses others. -/
inductive HostExpr where
  | val (v : HostVal)
  | xor (x y : HostExpr)
  | and (x y : HostExpr)
  | or (x y : HostExpr)
  | add (x y : HostExpr)
  | shl (x : HostExpr) (k : Nat)
  | shr (x : HostExpr) (k : Nat)
  deriving DecidableEq, Repr

/-- One line of an assembled host program (30_encoding.md R75). A branch names the number of the line it goes to.

DESIGN CHOICE (log 24): R75 says what `V` may be and not what `MASK` and `OFF` may be; here both are constants, of any
size, and never a temporary. Safe. -/
inductive HostLine where
  /-- `st OFF, V[32k+31:32k]`: one write transaction. Plain `st OFF, V` has `k = 0`. -/
  | st (off : Nat) (v : HostVal) (k : Nat)
  /-- `ld OFF -> tN` (no part) or `ld OFF -> tN.k`: one read transaction. -/
  | ld (off t : Nat) (k : Option Nat)
  /-- `tN <- expr`. -/
  | assign (t : Nat) (e : HostExpr)
  /-- `bnz tN, MASK, L`, with `MASK` a constant (log 24). -/
  | bnz (t mask target : Nat)
  /-- `beq tN, V, L`. -/
  | beq (t : Nat) (v : HostVal) (target : Nat)
  /-- `bne tN, V, L`. -/
  | bne (t : Nat) (v : HostVal) (target : Nat)
  /-- `halt`. -/
  | halt
  deriving DecidableEq, Repr

/-- One line of a host program as it is written: with labels (numbers stand for label names) and the
pseudo-instructions of 30_encoding.md R76. `MASK` and `OFF` are constants (log 24). -/
inductive HostSrc where
  | label (l : Nat)
  | st (off : Nat) (v : HostVal)
  | ld (off t : Nat)
  | assign (t : Nat) (e : HostExpr)
  | bnz (t mask l : Nat)
  | beq (t : Nat) (v : HostVal) (l : Nat)
  | bne (t : Nat) (v : HostVal) (l : Nat)
  | halt
  | setm (v : HostVal)
  | wr (r : WideReg) (v : HostVal)
  | cmd (i : Instr)
  | wait
  | rd (r : WideReg) (t : Nat)
  | err (t : Nat)
  deriving DecidableEq, Repr

/-- Which agent moves in a step (00_scope.md R11, 70_reset_and_hazards.md R230, 60_exceptions.md R210). -/
inductive Turn where
  /-- The engine's step (40_command_cycle.md R102). -/
  | engine
  /-- One line of the host program. -/
  | host
  /-- A bus access by any agent on the host side of the bus. -/
  | access (acc : BusAccess)
  /-- The reset event. -/
  | reset
  deriving DecidableEq, Repr

end Sys2Proof
end

