-- ==== Sys2Proof/WellFormed.lean ====
section
/-! DEFINITION. Checks on syntax and parameters. The model gives ill-formed accesses and command words the outcomes the
spec gives them; these checks say which are well formed. -/

namespace Sys2Proof

/-- A command has no field, so every one is well formed (30_encoding.md R70, R73). -/
def Instr.wf : Instr → Bool
  | .add => true
  | .sub => true
  | .mul => true
  | .divrem => true
  | .div => true
  | .mod => true
  | .inv => true

/-- A command word that names an operation: bits 31:4 are 0 and bits 3:0 are 1 to 7 (30_encoding.md R70, R71). -/
def CommandWord.wf (w : Word) : Bool :=
  w.extractLsb' 4 28 == 0 && 1 ≤ (w.extractLsb' 0 4).toNat && (w.extractLsb' 0 4).toNat ≤ 7

/-- The bounds of 00_scope.md R6 on `M_MAX`. DESIGN CHOICE (log 23): any further entries of the registry table are
legal, and the polynomial of one may have any degree. Safe. -/
def Config.wf (c : Config) : Bool :=
  1 ≤ c.mMax && c.mMax ≤ 8192

/-- The accesses 20_memory.md R53 admits: in the window, 4 bytes wide, at an offset that is a multiple of 4. -/
def BusAccess.wf (c : Config) : BusAccess → Bool
  | .read addr width | .write addr width _ =>
    c.blockBase ≤ addr && addr - c.blockBase < Machine.windowSize && width == 4 && (addr - c.blockBase) % 4 == 0

/-- `V` of `st OFF, V` is a 32-bit constant or a temporary (30_encoding.md R75). -/
def HostVal.wf32 : HostVal → Bool
  | .const v => v < 2 ^ 32
  | .temp _ => true

/-- What 30_encoding.md R75 and R76 ask of a written host line: 32-bit constants where R75's `V` stands, offsets
that R53 admits, and `wr` only to A, B and P. `expand` does not ask for it (log 25). -/
def HostSrc.wf : HostSrc → Bool
  | .label _ | .assign _ _ | .bnz _ _ _ | .halt | .cmd _ | .wait | .rd _ _ | .err _ => true
  | .st off v => off < Machine.windowSize && off % 4 == 0 && v.wf32
  | .ld off _ => off < Machine.windowSize && off % 4 == 0
  | .setm v | .beq _ v _ | .bne _ v _ => v.wf32
  | .wr r _ => r == .a || r == .b || r == .p

end Sys2Proof
end

