-- ==== Sys2Proof/Decode.lean ====
section
/-! DEFINITION. Decoding a command word (30_encoding.md R70 to R72), total on any bytes, and the encoder. -/

namespace Sys2Proof

/-- Why a word names no operation (30_encoding.md R72). Every one of these completes with `ILLEGAL_COMMAND`. -/
inductive DecodeReject where
  /-- Bits 31:4 are not all 0. -/
  | highBitsSet
  /-- The word 0. -/
  | zeroWord
  /-- `OP` is 8 to 15. -/
  | unnamedOp
  /-- Not four bytes: a command has one length, 32 bits (R70). -/
  | wrongLength
  deriving DecidableEq, Repr

/-- What the decoder answers: a command, or a rejection by name. -/
inductive Decoded where
  | instr (i : Instr)
  | reject (r : DecodeReject)
  deriving DecidableEq, Repr

/-- The field `OP`, bits 3:0 of a command word (30_encoding.md R70). -/
def opField (w : Word) : BitVec 4 := w.extractLsb' 0 4

/-- The field `Z`, bits 31:4 of a command word (30_encoding.md R70). -/
def zField (w : Word) : BitVec 28 := w.extractLsb' 4 28

/-- The operation a value of `OP` names (30_encoding.md R71, R72). -/
def decodeOp (op : BitVec 4) : Decoded :=
  match op.toNat with
  | 0 => .reject .zeroWord
  | 1 => .instr .add
  | 2 => .instr .sub
  | 3 => .instr .mul
  | 4 => .instr .divrem
  | 5 => .instr .div
  | 6 => .instr .mod
  | 7 => .instr .inv
  | _ => .reject .unnamedOp

/-- The command decoder: the whole word at once (30_encoding.md R70 to R72). -/
def decode (w : Word) : Decoded :=
  if zField w = 0 then decodeOp (opField w) else .reject .highBitsSet

/-- Byte lane `b` of a word, bits `8b+7 .. 8b` (20_memory.md R57). -/
def byteLane (w : Word) (b : Nat) : Byte := w.extractLsb' (8 * b) 8

/-- The word whose byte lanes 0 to 3 are these bytes: little-endian (20_memory.md R57). -/
def wordOfLanes (b0 b1 b2 b3 : Byte) : Word := b3 ++ b2 ++ b1 ++ b0

/-- A command word as a byte-carrying bus carries it, lane 0 first (20_memory.md R57). -/
def bytesOfWord (w : Word) : List Byte := [byteLane w 0, byteLane w 1, byteLane w 2, byteLane w 3]

/-- Decoding the bytes of a command, lane 0 first; total on any list of bytes. -/
def decodeBytes : List Byte → Decoded
  | [b0, b1, b2, b3] => decode (wordOfLanes b0 b1 b2 b3)
  | _ => .reject .wrongLength

/-- The value of `OP` of a command (30_encoding.md R71). -/
def opcode : Instr → BitVec 4
  | .add => 1
  | .sub => 2
  | .mul => 3
  | .divrem => 4
  | .div => 5
  | .mod => 6
  | .inv => 7

/-- The encoder: the word of a command, `Z` zero above `OP` (30_encoding.md R70, R71). -/
def encode (i : Instr) : Word := (0 : BitVec 28) ++ opcode i

/-- The host's question about a row of the opcode table: what the decoder reads from an instruction of `nbits` bits
whose bits are `w`, the bits above `nbits` zero, laid out in the bus's byte lanes. A command has 32 bits, so a longer
row is none of this block's. -/
def decodeTableWord (nbits w : Nat) : Option Instr :=
  if nbits ≤ 32 then
    match decodeBytes (bytesOfWord (BitVec.ofNat 32 (w % 2 ^ nbits))) with
    | .instr i => some i
    | .reject _ => none
  else none

end Sys2Proof
end

