-- ==== Sys2Proof/Machine/State.lean ====
section
/-! DEFINITION. The state of the block (10_state.md R20), the host side beside it, the reasons a step can stop, and the
state after reset (70_reset_and_hazards.md R230). -/

namespace Sys2Proof.Machine

/-- The values of STATUS.ERR (60_exceptions.md R200). Codes 7 to 15 are reserved and never written, so they have no
name here. DEDUCED (log 17): the field is held by name, its number is `ErrCode.code`. Safe. -/
inductive ErrCode where
  | none
  | divisionByZero
  | zeroHasNoInverse
  | noInverseExists
  | badField
  | operandRange
  | illegalCommand
  deriving DecidableEq, Repr

/-- The fields of register STATUS (10_state.md R27). Its reserved bits are no storage. The word is `Status.word`. -/
structure Status where
  busy : Bool
  done : Bool
  err : ErrCode
  deriving DecidableEq, Repr

/-- The snapshot that IF holds while a command is in flight (10_state.md R33). -/
structure Snapshot where
  w : Word
  a : Nat
  b : Nat
  m : BitVec 16
  p : Nat
  deriving DecidableEq, Repr

/-- The host side and the outside world: the model's own fields, no state of the block.

DESIGN CHOICE (log 2): which agent moves next is data, so that a claim about every state is a claim about every
schedule. Safe. -/
structure Env where
  /-- The turns still to come, first one first (log 2, log 3). -/
  schedule : List Turn
  /-- The host program (30_encoding.md R75). -/
  prog : List HostLine
  /-- The number of the host line to run next. It is the host's: the block has no program counter (10_state.md R20). -/
  pc : Nat
  /-- The host temporaries by number, in rising order, those that are 0 left out (log 8). -/
  temps : List (Nat × Nat)
  /-- The word the block answered to the last read access (log 10). -/
  rdata : Option Word
  deriving DecidableEq, Repr

/-- The whole state: the parameters (constants), the architectural state of 10_state.md R20, and the host side.
CMD is no storage (R31) and PARAM is computed from the parameters (R32), so neither has a field.

DESIGN CHOICE (log 6): a wide register is the polynomial it holds, a natural number (00_scope.md R7), kept below `2^WR`
by the writes and by the invariant `State.Inv`. Safe. -/
structure State where
  cfg : Config
  a : Nat
  b : Nat
  p : Nat
  m : BitVec 16
  res : Nat
  rem : Nat
  status : Status
  /-- The in-flight record IF (10_state.md R33). -/
  inflight : Option Snapshot
  env : Env
  deriving DecidableEq, Repr

/-- Why the machine stops with a fault. -/
inductive Fault where
  /-- Raised by a bus access to the window that is not 4 bytes wide at an aligned offset: "A model treats such an access
  as a fault of the host's step, never as a value" (20_memory.md R53). It changes no state. Safe. -/
  | busError
  deriving DecidableEq, Repr

/-- Why the model gives a step no meaning. -/
inductive Refusal where
  /-- An instruction whose meaning is not written yet; raised by `exec` alone. Safe. -/
  | notModelled (mnemonic : String)
  /-- Raised by a bus access outside the register window: such an address is the platform's, and the spec does not say
  what answers there (20_memory.md R51). Safe (log 7). -/
  | platformAddress
  /-- Raised by `exec` asked to run a command when none is in flight: the engine's step is enabled exactly when IF is not
  empty (40_command_cycle.md R102). `step` never asks. Safe (log 5). -/
  | engineNotEnabled
  deriving DecidableEq, Repr

/-- STATUS after reset (10_state.md R27). -/
def Status.reset : Status := { busy := false, done := false, err := .none }

/-- The host side when nothing has happened yet: no program, no turn, every temporary 0.

DESIGN CHOICE (log 8, log 10, log 13): the spec gives the host no first state. Unsafe for a claim that rests on it. -/
def Env.reset : Env := { schedule := [], prog := [], pc := 0, temps := [], rdata := none }

/-- The state right after reset of a block with parameters `c`: every register at its value of
70_reset_and_hazards.md R230. -/
def State.resetOf (c : Config) : State :=
  { cfg := c, a := 0, b := 0, p := 0, m := 0, res := 0, rem := 0, status := Status.reset, inflight := none,
    env := Env.reset }

/-- The machine right after reset, in the reference test configuration (00_scope.md R6; log 1). -/
def State.reset : State := State.resetOf Config.reference

end Sys2Proof.Machine
end

