-- ==== Sys2Proof/Machine/Flags.lean ====
section
/-! DEFINITION. Register STATUS: the codes of ERR, the word the host reads, and its two updates, at acceptance and at
completion (10_state.md R27 to R30, 60_exceptions.md R200). -/

namespace Sys2Proof.Machine

/-- The number of an error (60_exceptions.md R200). -/
def ErrCode.code : ErrCode → BitVec 4
  | .none => 0
  | .divisionByZero => 1
  | .zeroHasNoInverse => 2
  | .noInverseExists => 3
  | .badField => 4
  | .operandRange => 5
  | .illegalCommand => 6

/-- The 32-bit word STATUS reads as: BUSY in bit 0, DONE in bit 1, ERR in bits 7:4, every other bit 0
(10_state.md R27). -/
def Status.word (t : Status) : Word :=
  (0 : BitVec 24) ++ t.err.code ++ (0 : BitVec 2) ++ BitVec.ofBool t.done ++ BitVec.ofBool t.busy

/-- STATUS at acceptance: BUSY 1, DONE 0, ERR 0 (40_command_cycle.md R100). -/
def Status.accepted : Status := { busy := true, done := false, err := .none }

/-- STATUS at completion with `e`, `none` for success: BUSY 0, DONE 1, ERR the code (40_command_cycle.md R106, R107). -/
def Status.completed (e : ErrCode) : Status := { busy := false, done := true, err := e }

end Sys2Proof.Machine
end

