-- ==== Sys2Proof/Machine/Poly.lean ====
section
/-! DEFINITION. Polynomials over GF(2) as natural numbers: bit `i` is the coefficient of x^i (00_scope.md R7 to R10).
Addition is the bitwise exclusive OR of natural numbers. -/

namespace Sys2Proof.Machine

/-- `deg(x)`: the index of the highest set bit, and -1 for 0 (00_scope.md R8). -/
def deg (x : Nat) : Int := if x = 0 then -1 else (Nat.log2 x : Int)

/-- The number of bits of `x`, `deg(x) + 1`: a bound on how often a degree can drop. -/
def bitLen (x : Nat) : Nat := if x = 0 then 0 else Nat.log2 x + 1

/-- The carry-less sum of `x << i` over the set bits `i < n` of `y`. -/
def clmulBelow (x y : Nat) : Nat → Nat
  | 0 => 0
  | n + 1 => clmulBelow x y n ^^^ (if y.testBit n then x <<< n else 0)

/-- `clmul(x, y)`, the carry-less product (00_scope.md R10). No command computes it; laws are stated with it. -/
def clmul (x y : Nat) : Nat := clmulBelow x y (bitLen y)

/-- `d` divides `x` in GF(2)[x]. -/
def PolyDvd (d x : Nat) : Prop := ∃ q, clmul d q = x

/-- `gcd(x, y) = 1` in GF(2)[x]: no polynomial but 1 divides both (45_invert_divide.md R164). -/
def Coprime (x y : Nat) : Prop := ∀ d, PolyDvd d x → PolyDvd d y → d = 1

/-- An irreducible polynomial: of degree at least 1, with no factors but 1 and itself (00_scope.md glossary). -/
def Irred (p : Nat) : Prop := 1 ≤ deg p ∧ ∀ d, PolyDvd d p → d = 1 ∨ d = p

/-- `zext_N(v)`: `v` as an `N`-bit value (00_scope.md R9). -/
def zext (n v : Nat) : Nat := v % 2 ^ n

/-- Bits `32k+31 .. 32k` of `x` (20_memory.md R52). -/
def wordAt (x k : Nat) : Word := BitVec.ofNat 32 (x >>> (32 * k))

/-- `x` with bits `32k+31 .. 32k` replaced by `v`: the words above, the new word, the words below (10_state.md R21). -/
def putWord (x k : Nat) (v : Word) : Nat :=
  (x >>> (32 * (k + 1))) <<< (32 * (k + 1)) ||| v.toNat <<< (32 * k) ||| x % 2 ^ (32 * k)

end Sys2Proof.Machine
end

