-- ==== Sys2Proof/Machine/Operands.lean ====
section
/-! DEFINITION. The operands of a command and the checks on them. Every command takes its operands from the snapshot
(30_encoding.md R73, R74). -/

namespace Sys2Proof.Machine

/-- The snapshot an acceptance takes of A, B, M and P, for the command word `w` (10_state.md R33, 40_command_cycle.md
R100). -/
def State.snapshot (s : State) (w : Word) : Snapshot := { w := w, a := s.a, b := s.b, m := s.m, p := s.p }

/-- The field degree of a snapshot, as a number. -/
def Snapshot.degree (c : Snapshot) : Nat := c.m.toNat

/-- The field check: `1 <= m <= M_MAX` and `deg(p) = m` (40_command_cycle.md R104). -/
def fieldOk (cfg : Config) (m p : Nat) : Bool := decide (1 ≤ m) && decide (m ≤ cfg.mMax) && decide (deg p = m)

/-- The range check: `x < 2^m` (40_command_cycle.md R105). -/
def inRange (x m : Nat) : Bool := decide (x < 2 ^ m)

end Sys2Proof.Machine
end

