-- ==== Sys2Proof/Machine/Ops.lean ====
section
/-! DEFINITION. The named operations: reading and writing the wide registers, accepting a command, completing it with
results or with an error, and the reset event. An error is the block's only exception, and it is not a trap: completing
with it is its whole entry, and there is no return from it (60_exceptions.md R205, R206). -/

namespace Sys2Proof.Machine

/-- The value of a wide register (10_state.md R20). -/
def State.wide (s : State) : WideReg → Nat
  | .a => s.a
  | .b => s.b
  | .p => s.p
  | .res => s.res
  | .rem => s.rem

/-- A host write of word `k < NW` of a wide register: A, B and P are storage (10_state.md R21 to R23), RES and REM ignore
it (R25, R26). -/
def State.putWide (s : State) (r : WideReg) (k : Nat) (v : Word) : State :=
  match r with
  | .a => { s with a := putWord s.a k v }
  | .b => { s with b := putWord s.b k v }
  | .p => { s with p := putWord s.p k v }
  | .res => s
  | .rem => s

/-- Acceptance of the command word `w` (40_command_cycle.md R100). -/
def State.accept (s : State) (w : Word) : State :=
  { s with inflight := some (s.snapshot w), status := Status.accepted }

/-- A host write of `w` to CMD: accepted when IF is empty (40_command_cycle.md R100), dropped otherwise (R101). -/
def State.issue (s : State) (w : Word) : State :=
  match s.inflight with
  | none => s.accept w
  | some _ => s

/-- What a command's function ends with: `Ok(r1, r2)` or `Err(e)` (40_command_cycle.md R103, R108). -/
inductive CmdResult where
  | ok (r1 r2 : Nat)
  | err (e : ErrCode)
  deriving DecidableEq, Repr

/-- Completion with `Ok(r1, r2)` (40_command_cycle.md R106). -/
def State.completeOk (s : State) (r1 r2 : Nat) : State :=
  { s with
    res := zext (wr s.cfg) r1
    rem := zext (wr s.cfg) r2
    status := Status.completed .none
    inflight := none }

/-- Completion with `Err(e)`: the entry to an error, shared by every command. RES and REM keep their values
(40_command_cycle.md R107). -/
def State.completeErr (s : State) (e : ErrCode) : State :=
  { s with status := Status.completed e, inflight := none }

/-- Completion with either (40_command_cycle.md R102). -/
def State.complete (s : State) : CmdResult → State
  | .ok r1 r2 => s.completeOk r1 r2
  | .err e => s.completeErr e

/-- The engine's step for a command whose function is `f`: a pure function of the parameters and the snapshot, applied in
one indivisible step (40_command_cycle.md R102, R103). -/
def runCommand (f : Config → Snapshot → CmdResult) (s : State) : Host.Outcome State Fault Refusal :=
  match s.inflight with
  | none => .refused .engineNotEnabled
  | some c => .next (s.complete (f s.cfg c))

/-- The reset event, in any state: every register takes its reset value, the command in flight is abandoned, PARAM is not
changed (70_reset_and_hazards.md R230). The host is not the block: its side stays (log 15). -/
def State.resetEvent (s : State) : State := { State.resetOf s.cfg with env := s.env }

end Sys2Proof.Machine
end

