-- ==== Sys2Proof/Machine/Adder.lean ====
section
/-! DEFINITION. The field-element XOR adder: ADD and SUB (41_add_sub.md). -/

namespace Sys2Proof.Machine

/-- `ADD_cmd` (41_add_sub.md R120). -/
def addCmd (_ : Config) (c : Snapshot) : CmdResult := .ok (c.a ^^^ c.b) 0

/-- `SUB_cmd` (41_add_sub.md R121). -/
def subCmd (_ : Config) (c : Snapshot) : CmdResult := .ok (c.a ^^^ c.b) 0

/-- ADD (41_add_sub.md R120). -/
def execAdd (s : State) : Host.Outcome State Fault Refusal := runCommand addCmd s

/-- SUB (41_add_sub.md R121). -/
def execSub (s : State) : Host.Outcome State Fault Refusal := runCommand subCmd s

end Sys2Proof.Machine
end

