-- ==== Sys2Proof/Machine/Multiplier.lean ====
section
/-! DEFINITION. The polynomial multiplier with irreducible-polynomial reduction: MUL (42_multiply.md). -/

namespace Sys2Proof.Machine

/-- The shift of the multiplier: `a << 1`, folded back by `p` when the shift set bit `m` (42_multiply.md R130). -/
def mulShift (m p a : Nat) : Nat :=
  if (a <<< 1).testBit m then a <<< 1 ^^^ p else a <<< 1

/-- `acc` and `a` after the first `i` iterations of `gf_mul` (42_multiply.md R130). -/
def gfMulIter (m p a b : Nat) : Nat → Nat × Nat
  | 0 => (0, a)
  | i + 1 =>
    let st := gfMulIter m p a b i
    (if b.testBit i then st.1 ^^^ st.2 else st.1, mulShift m p st.2)

/-- `gf_mul(m, p, a, b)`: exactly `m` iterations (42_multiply.md R130). -/
def gfMul (m p a b : Nat) : Nat := (gfMulIter m p a b m).1

/-- `MUL_cmd` (42_multiply.md R131). -/
def mulCmd (cfg : Config) (c : Snapshot) : CmdResult :=
  if fieldOk cfg c.degree c.p then
    if inRange c.a c.degree then
      if inRange c.b c.degree then .ok (gfMul c.degree c.p c.a c.b) 0
      else .err .operandRange
    else .err .operandRange
  else .err .badField

/-- MUL (42_multiply.md R131). -/
def execMul (s : State) : Host.Outcome State Fault Refusal := runCommand mulCmd s

end Sys2Proof.Machine
end

