-- ==== Sys2Proof/Machine/Reduction.lean ====
section
/-! DEFINITION. The modular-reduction unit: MOD (44_modulo_reduce.md). -/

namespace Sys2Proof.Machine

/-- The loop of `pmod` (44_modulo_reduce.md R150), at most `n` times. -/
def pmodLoop (p : Nat) : Nat → Nat → Nat
  | 0, x => x
  | n + 1, x =>
    if deg p ≤ deg x then pmodLoop p n (x ^^^ p <<< (deg x - deg p).toNat)
    else x

/-- `pmod(p, x)`, for `p != 0` (44_modulo_reduce.md R150). DEDUCED (log 12): the degree of `x` drops at every iteration,
so `bitLen x` iterations are enough. -/
def pmod (p x : Nat) : Nat := pmodLoop p (bitLen x) x

/-- `MOD_cmd` (44_modulo_reduce.md R151). -/
def modCmd (cfg : Config) (c : Snapshot) : CmdResult :=
  if fieldOk cfg c.degree c.p then .ok (pmod c.p c.a) 0
  else .err .badField

/-- MOD (44_modulo_reduce.md R151). -/
def execMod (s : State) : Host.Outcome State Fault Refusal := runCommand modCmd s

end Sys2Proof.Machine
end

