-- ==== Sys2Proof/Machine/Inversion.lean ====
section
/-! DEFINITION. The extended-Euclidean inversion engine and field division: INV and DIV (45_invert_divide.md). -/

namespace Sys2Proof.Machine

/-- The working values of `gf_inv`: the pairs `(u, g1)` and `(v, g2)` (45_invert_divide.md R160). They live inside one
engine step only (10_state.md R34) and are unbounded (R163). -/
structure InvPairs where
  u : Nat
  v : Nat
  g1 : Nat
  g2 : Nat
  deriving DecidableEq, Repr

/-- The swap that gives `u` the larger or equal degree (45_invert_divide.md R160). -/
def InvPairs.align (t : InvPairs) : InvPairs :=
  if deg t.u < deg t.v then { u := t.v, v := t.u, g1 := t.g2, g2 := t.g1 } else t

/-- The XOR of an iteration: `shift <- deg(u) - deg(v)`, then `u` and `g1` (45_invert_divide.md R160). -/
def InvPairs.cancel (t : InvPairs) : InvPairs :=
  let shift := (deg t.u - deg t.v).toNat
  { t with u := t.u ^^^ t.v <<< shift, g1 := t.g1 ^^^ t.g2 <<< shift }

/-- The loop of `gf_inv`, at most `n` times (45_invert_divide.md R160): the `g1` it succeeds with, or `none` for
`NO_INVERSE_EXISTS`. -/
def gfInvLoop : Nat → InvPairs → Option Nat
  | 0, _ => none
  | n + 1, t =>
    if t.u = 1 then some t.g1
    else if t.v = 0 then none
    else gfInvLoop n t.align.cancel

/-- `gf_inv(p, a)`, for `a != 0` and `deg(p) >= 1` (45_invert_divide.md R160). DEDUCED (log 12): R163 gives at most
`deg(a) + deg(p) + 1` iterations. -/
def gfInv (p a : Nat) : Option Nat :=
  match gfInvLoop (bitLen a + bitLen p) { u := a, v := p, g1 := 1, g2 := 0 } with
  | some g1 => some (pmod p g1)
  | none => none

/-- `INV_cmd` (45_invert_divide.md R161). -/
def invCmd (cfg : Config) (c : Snapshot) : CmdResult :=
  if fieldOk cfg c.degree c.p then
    if inRange c.a c.degree then
      if c.a = 0 then .err .zeroHasNoInverse
      else
        match gfInv c.p c.a with
        | some x => .ok x 0
        | none => .err .noInverseExists
    else .err .operandRange
  else .err .badField

/-- `gf_div(m, p, a, b)`, for `b != 0`: the inversion runs first (45_invert_divide.md R165). -/
def gfDiv (m p a b : Nat) : Option Nat :=
  match gfInv p b with
  | some x => some (gfMul m p a x)
  | none => none

/-- `DIV_cmd` (45_invert_divide.md R166). -/
def divCmd (cfg : Config) (c : Snapshot) : CmdResult :=
  if fieldOk cfg c.degree c.p then
    if inRange c.a c.degree then
      if inRange c.b c.degree then
        if c.b = 0 then .err .divisionByZero
        else
          match gfDiv c.degree c.p c.a c.b with
          | some x => .ok x 0
          | none => .err .noInverseExists
      else .err .operandRange
    else .err .operandRange
  else .err .badField

/-- INV (45_invert_divide.md R161). -/
def execInv (s : State) : Host.Outcome State Fault Refusal := runCommand invCmd s

/-- DIV (45_invert_divide.md R166). -/
def execDiv (s : State) : Host.Outcome State Fault Refusal := runCommand divCmd s

end Sys2Proof.Machine
end

