-- ==== Sys2Proof/Machine/LongDivision.lean ====
section
/-! DEFINITION. The polynomial long-division unit: DIVREM (43_long_division.md). -/

namespace Sys2Proof.Machine

/-- The loop of `pdivrem` (43_long_division.md R140), at most `n` times. -/
def pdivremLoop (b : Nat) : Nat → Nat → Nat → Nat × Nat
  | 0, q, r => (q, r)
  | n + 1, q, r =>
    if deg b ≤ deg r then
      let d := (deg r - deg b).toNat
      pdivremLoop b n (q ||| 1 <<< d) (r ^^^ b <<< d)
    else (q, r)

/-- `pdivrem(a, b)`, for `b != 0` (43_long_division.md R140). DEDUCED (log 12): the degree of the remainder drops at every
iteration, so `bitLen a` iterations are enough. -/
def pdivrem (a b : Nat) : Nat × Nat := pdivremLoop b (bitLen a) 0 a

/-- `DIVREM_cmd` (43_long_division.md R141). -/
def divremCmd (_ : Config) (c : Snapshot) : CmdResult :=
  if c.b = 0 then .err .divisionByZero
  else .ok (pdivrem c.a c.b).1 (pdivrem c.a c.b).2

/-- DIVREM (43_long_division.md R141). -/
def execDivrem (s : State) : Host.Outcome State Fault Refusal := runCommand divremCmd s

end Sys2Proof.Machine
end

