-- ==== Sys2Proof/Machine/Bus.lean ====
section
/-! DEFINITION. The register window and the host's bus accesses to it (20_memory.md). -/

namespace Sys2Proof.Machine

/-- What stands at an offset of the window (20_memory.md R51). -/
inductive Region where
  | status
  | cmd
  | m
  | param
  | reserved
  | word (r : WideReg) (k : Nat)
  deriving DecidableEq, Repr

/-- `SPAN(REG)`, the offset of word 0 of a wide register (20_memory.md R52). -/
def span : WideReg → Nat
  | .a => 0x0800
  | .b => 0x1000
  | .p => 0x1800
  | .res => 0x2000
  | .rem => 0x2800

/-- The register map at an aligned offset; it does not depend on `M_MAX` (20_memory.md R51). -/
def region (off : Nat) : Region :=
  if off = 0x0000 then .status
  else if off = 0x0004 then .cmd
  else if off = 0x0008 then .m
  else if off = 0x000C then .param
  else if off < 0x0800 then .reserved
  else if off < 0x1000 then .word .a ((off - span .a) / 4)
  else if off < 0x1800 then .word .b ((off - span .b) / 4)
  else if off < 0x2000 then .word .p ((off - span .p) / 4)
  else if off < 0x2800 then .word .res ((off - span .res) / 4)
  else if off < 0x3000 then .word .rem ((off - span .rem) / 4)
  else .reserved

/-- `MemRead(off, 4)` at an aligned offset of the window (20_memory.md R51, R52, R54). -/
def readWord (s : State) (off : Nat) : Word :=
  match region off with
  | .status => s.status.word
  | .cmd => 0
  | .m => (0 : BitVec 16) ++ s.m
  | .param => paramWord s.cfg
  | .reserved => 0
  | .word r k => if k < nw s.cfg then wordAt (s.wide r) k else 0

/-- `MemWrite(off, 4, v)` at an aligned offset of the window: a write to CMD issues a command, every other write only
stores or is ignored (20_memory.md R51, R52, R54, R56; 10_state.md R24 for the reserved bits of M). -/
def writeWord (s : State) (off : Nat) (v : Word) : State :=
  match region off with
  | .status => s
  | .cmd => s.issue v
  | .m => { s with m := v.extractLsb' 0 16 }
  | .param => s
  | .reserved => s
  | .word r k => if k < nw s.cfg then s.putWide r k v else s

/-- The offset of a bus address, if it lies in the window at `BLOCK_BASE` (20_memory.md R50, R51). DESIGN CHOICE (log 7):
an access belongs to the window when its first byte does. Safe. DESIGN CHOICE (log 22): addresses do not wrap, so the
window is the numbers from `BLOCK_BASE` up. Unsafe. -/
def windowOffset (cfg : Config) (addr : Nat) : Option Nat :=
  if cfg.blockBase ≤ addr ∧ addr - cfg.blockBase < windowSize then some (addr - cfg.blockBase) else none

/-- 20_memory.md R53: 4 bytes wide, at an offset that is a multiple of 4. -/
def aligned32 (off width : Nat) : Bool := decide (width = 4) && decide (off % 4 = 0)

/-- The bus answers a read with the word `w`. -/
def State.answer (s : State) (w : Word) : State := { s with env := { s.env with rdata := some w } }

/-- One bus access (20_memory.md R50 to R57): it completes at once, whatever STATUS says (R58); a read has no side effect
on the block (R56); an access to the window that is not an aligned 32-bit one is a bus error (R53). -/
def busAccess (acc : BusAccess) (s : State) : Host.Outcome State Fault Refusal :=
  match acc with
  | .read addr width =>
    match windowOffset s.cfg addr with
    | none => .refused .platformAddress
    | some off => if aligned32 off width then .next (s.answer (readWord s off)) else .fault .busError
  | .write addr width v =>
    match windowOffset s.cfg addr with
    | none => .refused .platformAddress
    | some off => if aligned32 off width then .next (writeWord s off v) else .fault .busError

end Sys2Proof.Machine
end

