-- ==== Sys2Proof/Machine/HostSide.lean ====
section
/-! DEFINITION. The host program: one line is one step of the host (30_encoding.md R75). None of it is block state. -/

namespace Sys2Proof.Machine

/-- The value of host temporary `t`. DESIGN CHOICE (log 8): one that nothing has set is 0. Unsafe. -/
def tempGet : List (Nat × Nat) → Nat → Nat
  | [], _ => 0
  | (k, x) :: rest, t => if k = t then x else tempGet rest t

/-- Setting host temporary `t` to `v`, keeping the list in its one form: rising numbers, no zero value. -/
def tempSet : List (Nat × Nat) → Nat → Nat → List (Nat × Nat)
  | [], t, v => if v = 0 then [] else [(t, v)]
  | (k, x) :: rest, t, v =>
    if t < k then (if v = 0 then (k, x) :: rest else (t, v) :: (k, x) :: rest)
    else if t = k then (if v = 0 then rest else (t, v) :: rest)
    else (k, x) :: tempSet rest t v

/-- The one form of the temporaries: numbers from `lo` up, strictly rising, no value 0. -/
def tempWfFrom : Nat → List (Nat × Nat) → Bool
  | _, [] => true
  | lo, (k, x) :: rest => decide (lo ≤ k) && decide (x ≠ 0) && tempWfFrom (k + 1) rest

/-- The temporaries are in their one form. -/
def tempWf (l : List (Nat × Nat)) : Bool := tempWfFrom 0 l

/-- The value of a constant or a temporary. -/
def hostValue (temps : List (Nat × Nat)) : HostVal → Nat
  | .const v => v
  | .temp t => tempGet temps t

/-- Host arithmetic, on non-negative integers of any size (00_scope.md R9). DESIGN CHOICE (log 9). -/
def hostEval (temps : List (Nat × Nat)) : HostExpr → Nat
  | .val v => hostValue temps v
  | .xor x y => hostEval temps x ^^^ hostEval temps y
  | .and x y => hostEval temps x &&& hostEval temps y
  | .or x y => hostEval temps x ||| hostEval temps y
  | .add x y => hostEval temps x + hostEval temps y
  | .shl x k => hostEval temps x <<< k
  | .shr x k => hostEval temps x >>> k

/-- The host goes to line `n`. -/
def State.goto (s : State) (n : Nat) : State := { s with env := { s.env with pc := n } }

/-- The host goes to the line after the present one. -/
def State.nextLine (s : State) : State := s.goto (s.env.pc + 1)

/-- The host sets temporary `t`. -/
def State.setTemp (s : State) (t v : Nat) : State :=
  { s with env := { s.env with temps := tempSet s.env.temps t v } }

/-- What a temporary holds after a load: the word (`tN`), or its old value with part `k` replaced (`tN.k`). -/
def loadedValue (old : Nat) (k : Option Nat) (w : Word) : Nat :=
  match k with
  | none => w.toNat
  | some k => putWord old k w

/-- One line of the host program (30_encoding.md R75). `st` and `ld` are one bus transaction each, at the offset from
`BLOCK_BASE`; the other lines make none. -/
def runLine (line : HostLine) (s : State) : Host.Outcome State Fault Refusal :=
  match line with
  | .st off v k =>
    match busAccess (.write (s.cfg.blockBase + off) 4 (wordAt (hostValue s.env.temps v) k)) s with
    | .next t => .next t.nextLine
    | .fault r => .fault r
    | .refused r => .refused r
  | .ld off t k =>
    match busAccess (.read (s.cfg.blockBase + off) 4) s with
    | .next u => .next (u.setTemp t (loadedValue (tempGet s.env.temps t) k (readWord s off))).nextLine
    | .fault r => .fault r
    | .refused r => .refused r
  | .assign t e => .next (s.setTemp t (hostEval s.env.temps e)).nextLine
  | .bnz t mask target =>
    .next (if tempGet s.env.temps t &&& mask = 0 then s.nextLine else s.goto target)
  | .beq t v target =>
    .next (if tempGet s.env.temps t = hostValue s.env.temps v then s.goto target else s.nextLine)
  | .bne t v target =>
    .next (if tempGet s.env.temps t = hostValue s.env.temps v then s.nextLine else s.goto target)
  | .halt => .next s

/-- The host's step: the line at its line number. DEDUCED (log 11): a program that has halted or has no further line does
nothing. -/
def hostStep (s : State) : Host.Outcome State Fault Refusal :=
  match s.env.prog[s.env.pc]? with
  | none => .next s
  | some line => runLine line s

end Sys2Proof.Machine
end

