-- ==== Sys2Proof/Machine/Engine.lean ====
section
/-! DEFINITION. The engine's step, and which agent moves next (40_command_cycle.md R102, R103, R109, R111). -/

namespace Sys2Proof.Machine

/-- The engine's step: the command in flight completes, an illegal word with `ILLEGAL_COMMAND` (40_command_cycle.md R102,
R103, R111). DEDUCED (log 4): with IF empty the step is not enabled, and a turn given to the engine then changes
nothing. -/
def engineStep (s : State) : Host.Outcome State Fault Refusal :=
  match s.inflight with
  | none => .next s
  | some c =>
    match decode c.w with
    | .instr i => exec i s
    | .reject _ => .next (s.completeErr .illegalCommand)

/-- Whose turn it is: the schedule's first entry. DESIGN CHOICE (log 3): after the schedule's end the engine moves while a
command is in flight, and else the host; so the engine's step is eventually taken (40_command_cycle.md R109). -/
def nextTurn (s : State) : Turn :=
  match s.env.schedule with
  | t :: _ => t
  | [] => if s.inflight.isSome then .engine else .host

/-- The schedule moves on by one turn. -/
def State.takeTurn (s : State) : State :=
  { s with env := { s.env with schedule := s.env.schedule.tail } }

/-- What an agent's turn does (00_scope.md R11, 20_memory.md R58, 70_reset_and_hazards.md R230). -/
def runTurn (t : Turn) (s : State) : Host.Outcome State Fault Refusal :=
  match t with
  | .engine => engineStep s
  | .host => hostStep s
  | .access acc => busAccess acc s
  | .reset => .next s.resetEvent

/-- A command word placed where the engine takes its next one: accepted into IF, with the engine's turn first. -/
def State.placeCommand (s : State) (w : Word) : State :=
  let t := s.accept w
  { t with env := { t.env with schedule := .engine :: t.env.schedule } }

end Sys2Proof.Machine
end

