-- ==== Sys2Proof/Machine/Notation.lean ====
section
/-! DEFINITION. The host notation: labels and the expansions of the pseudo-instructions (30_encoding.md R75, R76). -/

namespace Sys2Proof.Machine

/-- How many lines a written line becomes, with `n = NW`. -/
def srcSize (n : Nat) : HostSrc → Nat
  | .label _ => 0
  | .wr _ _ => n
  | .rd _ _ => n
  | .wait => 2
  | .err _ => 2
  | .st _ _ | .ld _ _ | .assign _ _ | .bnz _ _ _ | .beq _ _ _ | .bne _ _ _ | .halt | .setm _ | .cmd _ => 1

/-- The line numbers of the labels of a program that starts at line `pos`. -/
def labelTable (n : Nat) : Nat → List HostSrc → List (Nat × Nat)
  | _, [] => []
  | pos, .label l :: rest => (l, pos) :: labelTable n pos rest
  | pos, x :: rest => labelTable n (pos + srcSize n x) rest

/-- The line number of a label; none for a label the program does not have. -/
def labelLine (l : Nat) : List (Nat × Nat) → Option Nat
  | [] => none
  | (k, pos) :: rest => if k = l then some pos else labelLine l rest

/-- The expansion of a written line that stands at line `pos` (30_encoding.md R76). `rd`'s first load sets the whole
temporary and each further one its part, so that `tN` is the concatenation (log 8). DESIGN CHOICE (log 25): a line that
`HostSrc.wf` calls ill formed expands by the same pattern, so `wr` to RES or REM, which R76 does not give, becomes stores
that the block ignores. Unsafe. -/
def expand (n : Nat) (labels : List (Nat × Nat)) (pos : Nat) : HostSrc → Option (List HostLine)
  | .label _ => some []
  | .st off v => some [.st off v 0]
  | .ld off t => some [.ld off t none]
  | .assign t e => some [.assign t e]
  | .bnz t mask l => (labelLine l labels).map fun x => [.bnz t mask x]
  | .beq t v l => (labelLine l labels).map fun x => [.beq t v x]
  | .bne t v l => (labelLine l labels).map fun x => [.bne t v x]
  | .halt => some [.halt]
  | .setm v => some [.st 0x0008 v 0]
  | .wr r v => some ((List.range n).map fun k => .st (span r + 4 * k) v k)
  | .cmd i => some [.st 0x0004 (.const (encode i).toNat) 0]
  | .wait => some [.ld 0x0000 9 none, .bnz 9 0x1 pos]
  | .rd r t => some ((List.range n).map fun k => .ld (span r + 4 * k) t (if k = 0 then none else some k))
  | .err t => some [.ld 0x0000 t none, .assign t (.and (.shr (.val (.temp t)) 4) (.val (.const 0xF)))]

/-- The lines of a written program from line `pos` on; none if a branch names no label of the program (log 21). -/
def assembleFrom (n : Nat) (labels : List (Nat × Nat)) : Nat → List HostSrc → Option (List HostLine)
  | _, [] => some []
  | pos, x :: rest =>
    match expand n labels pos x, assembleFrom n labels (pos + srcSize n x) rest with
    | some l, some r => some (l ++ r)
    | _, _ => none

/-- A written host program as host lines, for a block with `n = NW` (30_encoding.md R75, R76). -/
def assemble (n : Nat) (src : List HostSrc) : Option (List HostLine) := assembleFrom n (labelTable n 0 src) 0 src

/-- The host starts a program: what stands outside the machine has loaded it (log 13). -/
def State.withProgram (s : State) (prog : List HostLine) : State :=
  { s with env := { s.env with prog := prog, pc := 0 } }

end Sys2Proof.Machine
end

