-- ==== Sys2Proof/Machine/Registry.lean ====
section
/-! DEFINITION. The Field Registry: host software, no part of the block (10_state.md R36 to R38). -/

namespace Sys2Proof.Machine

/-- The entry of a degree in a registry table: the first with that degree (log 19). -/
def registryEntry (m : Nat) : List (Nat × Nat) → Option Nat
  | [] => none
  | (d, p) :: rest => if d = m then some p else registryEntry m rest

/-- The default candidate x^m + 1, the integer `(1 << m) | 1` (10_state.md R37, 90_conflicts.md C1). -/
def registryDefault (m : Nat) : Nat := 1 <<< m ||| 1

/-- `REGISTRY_TABLE`: the entry `REGISTRY_TABLE(8) = 0x11B`, which every table holds, and the implementation's further
entries (10_state.md R36). -/
def registryTable (cfg : Config) : List (Nat × Nat) := (8, 0x11B) :: cfg.registryRest

/-- `registry(m)`: the table's polynomial, or the default candidate for an unlisted degree; it always returns a value
(10_state.md R36 to R38). -/
def registry (cfg : Config) (m : Nat) : Nat :=
  match registryEntry m (registryTable cfg) with
  | some p => p
  | none => registryDefault m

end Sys2Proof.Machine
end

