-- ==== Sys2Proof/Machine/Step.lean ====
section
/-! DEFINITION. One step of the machine: one turn of one agent. -/

namespace Sys2Proof.Machine

/-- One step: the agent whose turn it is moves (00_scope.md R11, 20_memory.md R58). -/
def step (s : State) : Host.Outcome State Fault Refusal := runTurn (nextTurn s) s.takeTurn

/-- The state in which the next step runs the command of `nbits` bits whose bits are `w`, the bits above zero. The block
fetches nothing (20_memory.md R50): the engine takes its command from IF, where an acceptance puts it
(40_command_cycle.md R100), so this is that acceptance, with the engine's turn next (log 14). -/
def State.withFetchWord (s : State) (nbits w : Nat) : State :=
  s.placeCommand (BitVec.ofNat 32 (w % 2 ^ nbits))

end Sys2Proof.Machine
end

