-- ==== Sys2Proof/Safety.lean ====
section
/-! DEFINITION. What holds of every state the machine reaches, in the terms claims use. -/

namespace Sys2Proof.Machine

/-- A value fits a wide register of a block with these parameters (00_scope.md R6). -/
def Fits (cfg : Config) (x : Nat) : Prop := x < 2 ^ wr cfg

/-- The operands of a snapshot fit the wide registers they were copied from (10_state.md R33). -/
structure Snapshot.Inv (cfg : Config) (c : Snapshot) : Prop where
  a_fits : Fits cfg c.a
  b_fits : Fits cfg c.b
  p_fits : Fits cfg c.p

/-- The invariant of the machine: the parameters are legal (00_scope.md R6), the wide registers hold `WR` bits (10_state.md
R20), BUSY is 1 exactly when IF is not empty (R28), BUSY and DONE never hold together (R27), ERR is 0 unless a command has
completed since acceptance or reset (R27, R30), and the host's temporaries are in their one form. -/
structure State.Inv (s : State) : Prop where
  cfg_wf : s.cfg.wf = true
  a_fits : Fits s.cfg s.a
  b_fits : Fits s.cfg s.b
  p_fits : Fits s.cfg s.p
  res_fits : Fits s.cfg s.res
  rem_fits : Fits s.cfg s.rem
  busy_iff : s.status.busy = s.inflight.isSome
  not_busy_done : ¬ (s.status.busy = true ∧ s.status.done = true)
  err_done : s.status.done = false → s.status.err = .none
  snapshot_fits : ∀ c, s.inflight = some c → c.Inv s.cfg
  temps_wf : tempWf s.env.temps = true

/-- The state a command that succeeded with these results leaves: RES, REM and STATUS written, IF empty, nothing else
changed (40_command_cycle.md R106). -/
def State.succeeded (s : State) (r1 r2 : Nat) : State :=
  { s with res := r1, rem := r2, status := { busy := false, done := true, err := .none }, inflight := none }

/-- The state a command that failed with `e` leaves: STATUS written, IF empty, nothing else changed (40_command_cycle.md
R107). -/
def State.failed (s : State) (e : ErrCode) : State :=
  { s with status := { busy := false, done := true, err := e }, inflight := none }

/-- Bus accesses one after another, each on the state the one before left (20_memory.md R58), up to the first stop. -/
def busAccesses : List BusAccess → State → Host.Outcome State Fault Refusal
  | [], s => .next s
  | acc :: rest, s =>
    match busAccess acc s with
    | .next t => busAccesses rest t
    | .fault r => .fault r
    | .refused r => .refused r

/-- `s` with the command of `c` in flight, its operands `x` and `y` in place of A and B. -/
def State.carrying (s : State) (c : Snapshot) (x y : Nat) : State :=
  { s with inflight := some { c with a := x, b := y } }

/-- The snapshot of a loaded field: `1 <= m <= M_MAX` and `deg(p) = m` (40_command_cycle.md R104). -/
def Snapshot.FieldLoaded (cfg : Config) (c : Snapshot) : Prop :=
  1 ≤ c.m.toNat ∧ c.m.toNat ≤ cfg.mMax ∧ deg c.p = c.m.toNat

/-- A state some run reaches from reset, whatever the parameters, the host program and the schedule. -/
inductive Reachable : State → Prop where
  | reset (cfg : Config) (env : Env) (hc : cfg.wf = true) (ht : tempWf env.temps = true) :
      Reachable { State.resetOf cfg with env := env }
  | step (s t : State) (h : Reachable s) (hs : step s = .next t) : Reachable t

end Sys2Proof.Machine
end

