-- ==== Sys2Proof/Certificates/Slice0/Obligations.lean ====
section
/-! DEFINITION. The statements about the machine, from the numbered rules of the spec. Each docstring says which. Where a
clause is the model's own choice, the docstring names the log entry. `State.succeeded` and `State.failed`
(Safety.lean) are the states of 40_command_cycle.md R106 and R107 written out: they change RES, REM (the first only), STATUS
and IF, and nothing else. -/

open Sys2Proof Sys2Proof.Machine

/-! ### Encoding -/

/-- Words written out from 30_encoding.md R70 and R71: `Z` (28 bits, 0), then `OP`; and one word of each kind that R72
calls illegal. -/
def Obligations.WrittenOutWordsDecode : Prop :=
  decode 0b0000000000000000000000000000_0001#32 = .instr .add ∧
  decode 0b0000000000000000000000000000_0010#32 = .instr .sub ∧
  decode 0b0000000000000000000000000000_0011#32 = .instr .mul ∧
  decode 0b0000000000000000000000000000_0100#32 = .instr .divrem ∧
  decode 0b0000000000000000000000000000_0101#32 = .instr .div ∧
  decode 0b0000000000000000000000000000_0110#32 = .instr .mod ∧
  decode 0b0000000000000000000000000000_0111#32 = .instr .inv ∧
  decode 0x00000000#32 = .reject .zeroWord ∧
  decode 0x00000008#32 = .reject .unnamedOp ∧
  decode 0x00000101#32 = .reject .highBitsSet

/-- Decoding the encoding of any command gives it back, from its word and from its bytes. -/
def Obligations.DecodeOfEncode : Prop :=
  ∀ i : Instr, decode (encode i) = .instr i ∧ decodeBytes (bytesOfWord (encode i)) = .instr i ∧
    decodeTableWord 32 (encode i).toNat = some i

/-- 30_encoding.md R71: a word names an operation exactly when bits 31:4 are 0 and bits 3:0 are in the table. No bit of the
word is left out, and no two words name one operation. -/
def Obligations.WordNamesOperationExactlyByTable : Prop :=
  ∀ (w : Word) (i : Instr), decode w = .instr i ↔
    w.extractLsb' 4 28 = 0 ∧
      (w.extractLsb' 0 4, i) ∈ [((1 : BitVec 4), Instr.add), (2, .sub), (3, .mul), (4, .divrem), (5, .div), (6, .mod),
        (7, .inv)]

/-- 20_memory.md R57: byte lane `b` is bits `8b+7 .. 8b` of the word, and decoding the four lanes, lane 0 first, is decoding
the word. -/
def Obligations.ByteLanesAreLittleEndian : Prop :=
  ∀ w : Word, (∀ b < 4, ∀ i < 8, (byteLane w b).getLsbD i = w.getLsbD (8 * b + i)) ∧
    wordOfLanes (byteLane w 0) (byteLane w 1) (byteLane w 2) (byteLane w 3) = w ∧
    decodeBytes (bytesOfWord w) = decode w

/-! ### The command cycle -/

/-- 40_command_cycle.md R100: a write to CMD while IF is empty accepts the command: the snapshot, BUSY 1, DONE 0, ERR 0, and
nothing else changes. -/
def Obligations.CmdWriteWhileIdleIsAccepted : Prop :=
  ∀ (s : State) (w : Word), s.inflight = none →
    busAccess (.write (s.cfg.blockBase + 0x0004) 4 w) s = .next
      { s with
        inflight := some { w := w, a := s.a, b := s.b, m := s.m, p := s.p }
        status := { busy := true, done := false, err := .none } }

/-- 40_command_cycle.md R101: a write to CMD while IF is not empty changes no state at all. -/
def Obligations.CmdWriteWhileBusyIsDropped : Prop :=
  ∀ (s : State) (c : Snapshot) (w : Word), s.inflight = some c →
    busAccess (.write (s.cfg.blockBase + 0x0004) 4 w) s = .next s

/-- 40_command_cycle.md R102, R103: in the engine's turn, a step with a command in flight whose word decodes to `i` is `exec`
of `i`, on the state with the turn taken off the schedule. The engine has the turn when the schedule says so, and when
the schedule is empty (the model's choice, log 3). `withFetchWord` places the command so. -/
def Obligations.StepRunsTheDecodedCommand : Prop :=
  (∀ (s : State) (c : Snapshot) (i : Instr), s.inflight = some c → decode c.w = .instr i →
    (s.env.schedule = [] ∨ ∃ rest, s.env.schedule = .engine :: rest) →
      step s = exec i { s with env := { s.env with schedule := s.env.schedule.tail } }) ∧
  (∀ (s : State) (i : Instr), step (s.withFetchWord 32 (encode i).toNat) = exec i (s.accept (encode i)))

/-- 40_command_cycle.md R111: a command word outside 1 to 7 completes with `ILLEGAL_COMMAND`, code 6, whatever the operands
are: RES, REM and everything but STATUS and IF stay. -/
def Obligations.IllegalWordCompletesWithIllegalCommand : Prop :=
  ∀ (s : State) (c : Snapshot), s.inflight = some c → ¬ (1 ≤ c.w.toNat ∧ c.w.toNat ≤ 7) →
    engineStep s = .next
      { s with status := { busy := false, done := true, err := .illegalCommand }, inflight := none } ∧
    ErrCode.illegalCommand.code = 6

/-- 40_command_cycle.md R102, 93_implementation_defined.md ("every command completes"): whatever word is in flight and
whatever the registers hold, the engine's step answers a next state, with IF empty, BUSY 0 and DONE 1. With IF empty the
engine has no step: its turn then changes nothing (the model's reading, log 4), and `exec` refuses (log 5). -/
def Obligations.EngineStepCompletesEveryCommand : Prop :=
  (∀ (s : State) (c : Snapshot), s.inflight = some c →
    ∃ t, engineStep s = .next t ∧ t.inflight = none ∧ t.status.busy = false ∧ t.status.done = true) ∧
  (∀ s : State, s.inflight = none → engineStep s = .next s ∧ ∀ i, exec i s = .refused .engineNotEnabled)

/-- 40_command_cycle.md R109 as the model has it (log 3, log 16): a command in flight is never forgotten. Each step that
completes either completes it, or resets the block, or leaves it in flight with one turn fewer in the schedule; and
once the schedule is empty the next step completes it. -/
def Obligations.CommandInFlightIsEventuallyCompleted : Prop :=
  ∀ (s : State) (c : Snapshot), s.inflight = some c →
    (∀ t, step s = .next t →
      (t.inflight = none ∧ t.status.busy = false ∧ t.status.done = true) ∨
      (∃ rest, s.env.schedule = .reset :: rest) ∨
      (t.inflight = some c ∧ t.env.schedule.length + 1 = s.env.schedule.length)) ∧
    (s.env.schedule = [] →
      ∃ t, step s = .next t ∧ t.inflight = none ∧ t.status.busy = false ∧ t.status.done = true)

/-- 40_command_cycle.md R110: two commands with equal snapshots, on blocks with the same parameters, complete with equal
writes: the same STATUS; on success the same RES and REM; on an error neither is written. -/
def Obligations.OutcomeIsAFunctionOfTheSnapshot : Prop :=
  ∀ (s s' : State) (c : Snapshot), s.cfg = s'.cfg → s.inflight = some c → s'.inflight = some c →
    ∃ t t', engineStep s = .next t ∧ engineStep s' = .next t' ∧ t.status = t'.status ∧
      ((t.status.err = .none ∧ t.res = t'.res ∧ t.rem = t'.rem) ∨
       (t.status.err ≠ .none ∧ t.res = s.res ∧ t.rem = s.rem ∧ t'.res = s'.res ∧ t'.rem = s'.rem))

/-- 40_command_cycle.md R107: a command that completes with an error writes STATUS (BUSY 0, DONE 1, ERR the code) and empties
IF; RES, REM and everything else keep their values. -/
def Obligations.FailedCommandWritesOnlyStatus : Prop :=
  ∀ (i : Instr) (s t : State), exec i s = .next t → t.status.err ≠ .none →
    t = { s with status := { busy := false, done := true, err := t.status.err }, inflight := none }

/-- The frame of the seven commands (30_encoding.md R73, 10_state.md R20): when `exec` answers a next state, A, B, P, M, the
parameters and the host side are unchanged, IF is empty, and every word of the register window outside STATUS, RES and REM
reads as before. -/
def Obligations.CommandFrame : Prop :=
  ∀ (i : Instr) (s t : State), exec i s = .next t →
    t.a = s.a ∧ t.b = s.b ∧ t.p = s.p ∧ t.m = s.m ∧ t.cfg = s.cfg ∧ t.env = s.env ∧ t.inflight = none ∧
    ∀ off, off ≠ 0x0000 → ¬ (0x2000 ≤ off ∧ off < 0x3000) → readWord t off = readWord s off

/-! ### ADD and SUB -/

/-- 41_add_sub.md R120: ADD completes on any operands, with RES the exclusive OR of A and B (which fits RES), REM 0, ERR 0,
whatever M and P hold; its word is 1. -/
def Obligations.AddCompletesWithXor : Prop :=
  ∀ (s : State) (c : Snapshot), s.inflight = some c → c.Inv s.cfg →
    exec .add s = .next (s.succeeded (c.a ^^^ c.b) 0) ∧ Fits s.cfg (c.a ^^^ c.b) ∧
    (c.w = 0x00000001 → engineStep s = exec .add s)

/-- 41_add_sub.md R121: SUB completes on any operands, with RES the exclusive OR of A and B (which fits RES), REM 0, ERR 0,
whatever M and P hold, and with the operands swapped gives the same result; its word is 2. -/
def Obligations.SubCompletesWithXor : Prop :=
  ∀ (s : State) (c : Snapshot), s.inflight = some c → c.Inv s.cfg →
    exec .sub s = .next (s.succeeded (c.a ^^^ c.b) 0) ∧ Fits s.cfg (c.a ^^^ c.b) ∧
    exec .sub (s.carrying c c.b c.a) = exec .sub s ∧
    (c.w = 0x00000002 → engineStep s = exec .sub s)

/-- 41_add_sub.md R122: the adder's laws, on the commands: SUB is ADD; ADD is commutative and associative; a value added to
itself gives 0; and adding `y` twice gives the value back. -/
def Obligations.AdderLaws : Prop :=
  ∀ (s : State) (c : Snapshot) (x y z : Nat), Fits s.cfg x → Fits s.cfg y → Fits s.cfg z →
    exec .sub (s.carrying c x y) = exec .add (s.carrying c x y) ∧
    exec .add (s.carrying c x y) = exec .add (s.carrying c y x) ∧
    exec .add (s.carrying c (x ^^^ y) z) = exec .add (s.carrying c x (y ^^^ z)) ∧
    exec .add (s.carrying c x x) = .next (s.succeeded 0 0) ∧
    exec .add (s.carrying c (x ^^^ y) y) = .next (s.succeeded x 0)

/-! ### MUL -/

/-- 42_multiply.md R131: MUL's checks in order, its result, its word 3, and its corner cases. It stops on nothing. -/
def Obligations.MulChecksAndResult : Prop :=
  ∀ (s : State) (c : Snapshot), s.inflight = some c →
    exec .mul s = .next
      (if ¬ (1 ≤ c.m.toNat ∧ c.m.toNat ≤ s.cfg.mMax ∧ deg c.p = c.m.toNat) then s.failed .badField
       else if ¬ c.a < 2 ^ c.m.toNat then s.failed .operandRange
       else if ¬ c.b < 2 ^ c.m.toNat then s.failed .operandRange
       else s.succeeded (gfMul c.m.toNat c.p c.a c.b) 0) ∧
    (c.w = 0x00000003 → engineStep s = exec .mul s) ∧
    (c.FieldLoaded s.cfg → c.a < 2 ^ c.m.toNat → c.b < 2 ^ c.m.toNat →
      (c.a = 0 ∨ c.b = 0 → exec .mul s = .next (s.succeeded 0 0)) ∧
      (c.b = 1 → exec .mul s = .next (s.succeeded c.a 0)) ∧
      (2 ≤ c.m.toNat → c.a = 2 ^ (c.m.toNat - 1) → c.b = 2 →
        exec .mul s = .next (s.succeeded (c.p ^^^ 2 ^ c.m.toNat) 0)) ∧
      (c.m.toNat = 1 → exec .mul s = .next (s.succeeded (c.a &&& c.b) 0)) ∧
      exec .mul s = .next (s.succeeded (pmod c.p (clmul c.a c.b)) 0))

/-- 42_multiply.md R133: on reduced operands the fused loop is the carry-less product reduced modulo `p`; after `i` iterations
`a` is the first operand times x^i, reduced, and `acc` is the product with the bits of `b` so far, reduced; and the source's
example. -/
def Obligations.MultiplierComputesReducedProduct : Prop :=
  (∀ m p a b : Nat, deg p = m → a < 2 ^ m → b < 2 ^ m →
    gfMul m p a b = pmod p (clmul a b) ∧
    ∀ i ≤ m, (gfMulIter m p a b i).2 = pmod p (a <<< i) ∧ (gfMulIter m p a b i).1 = pmod p (clmulBelow a b i)) ∧
  clmul 0x1A 0x2B = 0x3BE ∧ pmod 0x11B 0x3BE = 0x93

/-- 42_multiply.md R132: the widths inside the multiplier, at the start of every iteration `i`, after its shift, and of the
result. -/
def Obligations.MultiplierWidthBounds : Prop :=
  ∀ (cfg : Config) (m p a b : Nat), cfg.wf = true → m ≤ cfg.mMax → deg p = m → a < 2 ^ m → b < 2 ^ m →
    (∀ i ≤ m, (gfMulIter m p a b i).2 < 2 ^ m ∧ (gfMulIter m p a b i).2 <<< 1 < 2 ^ (m + 1) ∧
      (gfMulIter m p a b i).1 < 2 ^ m) ∧
    gfMul m p a b < 2 ^ m ∧ 2 ^ m ≤ 2 ^ cfg.mMax ∧ 2 ^ cfg.mMax < 2 ^ wr cfg

/-- 42_multiply.md R134: the multiplier's laws on reduced operands, for every modulus of degree `m`, irreducible or not. -/
def Obligations.MultiplierLaws : Prop :=
  ∀ m p a b c : Nat, 1 ≤ m → deg p = m → a < 2 ^ m → b < 2 ^ m → c < 2 ^ m →
    gfMul m p a b = gfMul m p b a ∧
    gfMul m p a 0 = 0 ∧
    gfMul m p a 1 = a ∧
    gfMul m p (gfMul m p a b) c = gfMul m p a (gfMul m p b c) ∧
    gfMul m p a (b ^^^ c) = gfMul m p a b ^^^ gfMul m p a c

/-! ### DIVREM -/

/-- 43_long_division.md R141: DIVREM fails with `DIVISION_BY_ZERO` exactly for divisor 0 and else completes with quotient and
remainder, whatever M and P hold; its word is 4; and its corner cases. -/
def Obligations.DivremChecksAndResult : Prop :=
  ∀ (s : State) (c : Snapshot), s.inflight = some c → c.Inv s.cfg →
    exec .divrem s = .next
      (if c.b = 0 then s.failed .divisionByZero
       else s.succeeded (pdivrem c.a c.b).1 (pdivrem c.a c.b).2) ∧
    (c.w = 0x00000004 → engineStep s = exec .divrem s) ∧
    (c.b ≠ 0 →
      (c.a = 0 → exec .divrem s = .next (s.succeeded 0 0)) ∧
      (c.b = 1 → exec .divrem s = .next (s.succeeded c.a 0)) ∧
      (c.a = c.b → exec .divrem s = .next (s.succeeded 1 0)) ∧
      (deg c.a < deg c.b → exec .divrem s = .next (s.succeeded 0 c.a)))

/-- 43_long_division.md R142: the division identity, and the pair is the only one with it. -/
def Obligations.DivisionIdentity : Prop :=
  ∀ a b : Nat, b ≠ 0 →
    a = clmul (pdivrem a b).1 b ^^^ (pdivrem a b).2 ∧ deg (pdivrem a b).2 < deg b ∧
    ∀ q r, a = clmul q b ^^^ r → deg r < deg b → (q, r) = pdivrem a b

/-- 43_long_division.md R143: the widths of quotient and remainder; both results fit RES and REM. -/
def Obligations.DivisionWidthBounds : Prop :=
  ∀ (cfg : Config) (a b : Nat), Fits cfg a → Fits cfg b → b ≠ 0 →
    (pdivrem a b).2 < 2 ^ (deg b).toNat ∧ 2 ^ (deg b).toNat ≤ b ∧
    ((pdivrem a b).1 = 0 ∨ (deg (pdivrem a b).1 = deg a - deg b ∧ deg a - deg b ≤ deg a)) ∧
    (pdivrem a b).1 ≤ a ∧ Fits cfg (pdivrem a b).1 ∧ Fits cfg (pdivrem a b).2

/-- 43_long_division.md R140: one iteration of the loop, from any point of it, with at least `bitLen r` iterations left; the
degree of the remainder drops in it; the bound on the iterations; and no iteration when `deg(a) < deg(b)`. -/
def Obligations.LongDivisionLoop : Prop :=
  (∀ b n q r : Nat, b ≠ 0 → bitLen r ≤ n →
    pdivremLoop b n q r =
      if deg b ≤ deg r then
        pdivremLoop b n (q ||| 1 <<< (deg r - deg b).toNat) (r ^^^ b <<< (deg r - deg b).toNat)
      else (q, r)) ∧
  (∀ b r : Nat, b ≠ 0 → deg b ≤ deg r → deg (r ^^^ b <<< (deg r - deg b).toNat) < deg r) ∧
  (∀ a b : Nat, b ≠ 0 → pdivremLoop b (deg a - deg b + 1).toNat 0 a = pdivrem a b) ∧
  (∀ a b : Nat, deg a < deg b → pdivrem a b = (0, a))

/-! ### MOD -/

/-- 44_modulo_reduce.md R151: MOD's one check, its result, its word 6, and its corner cases. -/
def Obligations.ModChecksAndResult : Prop :=
  ∀ (s : State) (c : Snapshot), s.inflight = some c →
    exec .mod s = .next
      (if ¬ (1 ≤ c.m.toNat ∧ c.m.toNat ≤ s.cfg.mMax ∧ deg c.p = c.m.toNat) then s.failed .badField
       else s.succeeded (pmod c.p c.a) 0) ∧
    (c.w = 0x00000006 → engineStep s = exec .mod s) ∧
    (c.FieldLoaded s.cfg →
      (c.a < 2 ^ c.m.toNat → exec .mod s = .next (s.succeeded c.a 0)) ∧
      (c.a = c.p → exec .mod s = .next (s.succeeded 0 0)) ∧
      (c.a = 2 ^ c.m.toNat → exec .mod s = .next (s.succeeded (c.p ^^^ 2 ^ c.m.toNat) 0)))

/-- MOD completes with the field element that differs from A by a multiple of `p` (44_modulo_reduce.md R151, R152). -/
def Obligations.ModCompletesWithRemainder : Prop :=
  ∀ (s : State) (c : Snapshot), s.inflight = some c → c.FieldLoaded s.cfg →
    ∃ r, exec .mod s = .next (s.succeeded r 0) ∧ r < 2 ^ c.m.toNat ∧ PolyDvd c.p (c.a ^^^ r)

/-- 44_modulo_reduce.md R150: the loop of `pmod`, the drop of the degree in each iteration, its end below the degree of `p`, the
bound on its iterations, and the remainder of long division. -/
def Obligations.ReductionLoop : Prop :=
  ∀ p x : Nat, p ≠ 0 →
    pmod p x = (if deg p ≤ deg x then pmod p (x ^^^ p <<< (deg x - deg p).toNat) else x) ∧
    (deg p ≤ deg x → deg (x ^^^ p <<< (deg x - deg p).toNat) < deg x) ∧
    deg (pmod p x) < deg p ∧
    pmodLoop p (deg x - deg p + 1).toNat x = pmod p x ∧
    pmod p x = (pdivrem x p).2

/-- 44_modulo_reduce.md R152: a successful MOD gives a field element, which fits RES; and the reduction's laws. -/
def Obligations.ReductionLaws : Prop :=
  (∀ (s t : State) (c : Snapshot), s.inflight = some c → exec .mod s = .next t → t.status.err = .none →
    t.res < 2 ^ c.m.toNat ∧ Fits s.cfg t.res) ∧
  ∀ p x y q : Nat, p ≠ 0 →
    pmod p (pmod p x) = pmod p x ∧
    pmod p (x ^^^ y) = pmod p x ^^^ pmod p y ∧
    (deg x < deg p → pmod p x = x) ∧
    pmod p (clmul q p) = 0

/-! ### INV -/

/-- 45_invert_divide.md R161: INV's checks in order, its result, its word 7, and its corner cases: 1 is its own inverse; an
operand that shares a factor with `p` has none; and with an irreducible `p` every nonzero element has one. -/
def Obligations.InvChecksAndResult : Prop :=
  ∀ (s : State) (c : Snapshot), s.inflight = some c →
    exec .inv s = .next
      (if ¬ (1 ≤ c.m.toNat ∧ c.m.toNat ≤ s.cfg.mMax ∧ deg c.p = c.m.toNat) then s.failed .badField
       else if ¬ c.a < 2 ^ c.m.toNat then s.failed .operandRange
       else if c.a = 0 then s.failed .zeroHasNoInverse
       else match gfInv c.p c.a with
         | some x => s.succeeded x 0
         | none => s.failed .noInverseExists) ∧
    (c.w = 0x00000007 → engineStep s = exec .inv s) ∧
    (c.FieldLoaded s.cfg → c.a < 2 ^ c.m.toNat →
      (c.a = 1 → exec .inv s = .next (s.succeeded 1 0)) ∧
      (c.a ≠ 0 → ¬ Coprime c.a c.p → exec .inv s = .next (s.failed .noInverseExists)) ∧
      (c.a ≠ 0 → Irred c.p → ∃ x, exec .inv s = .next (s.succeeded x 0)))

/-- 45_invert_divide.md R162: the loop invariant at the top of every iteration, and what it gives at success. -/
def Obligations.InversionLoopInvariant : Prop :=
  ∀ (p a n : Nat) (t : InvPairs), 1 ≤ deg p →
    t = (fun x : InvPairs => x.align.cancel)^[n] { u := a, v := p, g1 := 1, g2 := 0 } →
      pmod p (clmul t.g1 a) = pmod p t.u ∧ pmod p (clmul t.g2 a) = pmod p t.v ∧
      (t.u = 1 → pmod p (clmul (pmod p t.g1) a) = 1)

/-- 45_invert_divide.md R163: the loop ends, at an ending test, after at most `deg(a) + m` XORs, at most `2m - 1`; more
iterations allowed change nothing; while it runs `u` and `v` stay below `2^(m+1)`; and the result is below `2^m`. -/
def Obligations.InversionEndsWithinBound : Prop :=
  ∀ m p a : Nat, 1 ≤ m → deg p = m → a ≠ 0 → a < 2 ^ m →
    (deg a + m + 1).toNat ≤ 2 * m ∧
    (∃ n, n + 1 ≤ (deg a + m + 1).toNat ∧
      (((fun x : InvPairs => x.align.cancel)^[n] { u := a, v := p, g1 := 1, g2 := 0 }).u = 1 ∨
       ((fun x : InvPairs => x.align.cancel)^[n] { u := a, v := p, g1 := 1, g2 := 0 }).v = 0)) ∧
    (∀ n, (deg a + m + 1).toNat ≤ n →
      gfInvLoop n { u := a, v := p, g1 := 1, g2 := 0 } =
        gfInvLoop (deg a + m + 1).toNat { u := a, v := p, g1 := 1, g2 := 0 }) ∧
    (∀ n, ((fun x : InvPairs => x.align.cancel)^[n] { u := a, v := p, g1 := 1, g2 := 0 }).u < 2 ^ (m + 1) ∧
      ((fun x : InvPairs => x.align.cancel)^[n] { u := a, v := p, g1 := 1, g2 := 0 }).v < 2 ^ (m + 1)) ∧
    (∀ x, gfInv p a = some x → x < 2 ^ m)

/-- 45_invert_divide.md R164: `gf_inv` returns exactly for operands coprime to `p`, with the unique inverse; otherwise the
loop stands at `v = 0` with `u` the greatest common divisor; with an irreducible `p` every nonzero operand inverts; with a
reducible one some operand does not, for instance x + 1 with the registry's fallback. -/
def Obligations.InverseExistsExactlyWhenCoprime : Prop :=
  (∀ m p a : Nat, 1 ≤ m → deg p = m → a ≠ 0 → a < 2 ^ m →
    (Coprime a p → ∃ b, gfInv p a = some b ∧ b < 2 ^ m ∧ gfMul m p a b = 1 ∧
      ∀ b', b' < 2 ^ m → gfMul m p a b' = 1 → b' = b) ∧
    (¬ Coprime a p → gfInv p a = none ∧
      ∃ (n : Nat) (t : InvPairs), t = (fun x : InvPairs => x.align.cancel)^[n] { u := a, v := p, g1 := 1, g2 := 0 } ∧
        t.v = 0 ∧ PolyDvd t.u a ∧ PolyDvd t.u p ∧ ∀ d, PolyDvd d a → PolyDvd d p → PolyDvd d t.u) ∧
    (Irred p → gfInv p a ≠ none)) ∧
  (∀ m p : Nat, 1 ≤ m → deg p = m → ¬ Irred p → ∃ a, a ≠ 0 ∧ a < 2 ^ m ∧ gfInv p a = none) ∧
  (∀ m : Nat, 2 ≤ m → gfInv (registryDefault m) 0b11 = none)

/-- INV completes with the inverse (45_invert_divide.md R161, R162, R164): for a loaded field and a nonzero reduced operand
coprime to `p`, RES is a field element whose product with the operand is 1 modulo `p`, and REM is 0. -/
def Obligations.InvCompletesWithInverse : Prop :=
  ∀ (s : State) (c : Snapshot), s.inflight = some c → c.FieldLoaded s.cfg → c.a ≠ 0 → c.a < 2 ^ c.m.toNat →
    Coprime c.a c.p →
      ∃ x, exec .inv s = .next (s.succeeded x 0) ∧ x < 2 ^ c.m.toNat ∧ pmod c.p (clmul c.a x) = 1

/-! ### DIV -/

/-- 45_invert_divide.md R166: DIV's checks in order, its result, its word 5, and its corner cases. A zero divisor gives
`DIVISION_BY_ZERO`, and DIV never reports `ZERO_HAS_NO_INVERSE`. -/
def Obligations.DivChecksAndResult : Prop :=
  ∀ (s : State) (c : Snapshot), s.inflight = some c →
    exec .div s = .next
      (if ¬ (1 ≤ c.m.toNat ∧ c.m.toNat ≤ s.cfg.mMax ∧ deg c.p = c.m.toNat) then s.failed .badField
       else if ¬ c.a < 2 ^ c.m.toNat then s.failed .operandRange
       else if ¬ c.b < 2 ^ c.m.toNat then s.failed .operandRange
       else if c.b = 0 then s.failed .divisionByZero
       else match gfInv c.p c.b with
         | some x => s.succeeded (gfMul c.m.toNat c.p c.a x) 0
         | none => s.failed .noInverseExists) ∧
    (c.w = 0x00000005 → engineStep s = exec .div s) ∧
    (∀ t, exec .div s = .next t → t.status.err ≠ .zeroHasNoInverse) ∧
    (c.FieldLoaded s.cfg → c.a < 2 ^ c.m.toNat → c.b < 2 ^ c.m.toNat → c.b ≠ 0 →
      (¬ Coprime c.b c.p → exec .div s = .next (s.failed .noInverseExists)) ∧
      (c.a = 0 → Coprime c.b c.p → exec .div s = .next (s.succeeded 0 0)) ∧
      (c.a = c.b → Coprime c.b c.p → exec .div s = .next (s.succeeded 1 0)) ∧
      (c.b = 1 → exec .div s = .next (s.succeeded c.a 0)) ∧
      (c.a = 1 → ∀ x, gfInv c.p c.b = some x → exec .div s = .next (s.succeeded x 0)))

/-- DIV completes with the quotient (45_invert_divide.md R166, R167): for a loaded field and reduced operands, the divisor
nonzero and coprime to `p`, RES is a field element whose product with the divisor is the dividend, and REM is 0. -/
def Obligations.DivCompletesWithQuotient : Prop :=
  ∀ (s : State) (c : Snapshot), s.inflight = some c → c.FieldLoaded s.cfg →
    c.a < 2 ^ c.m.toNat → c.b < 2 ^ c.m.toNat → c.b ≠ 0 → Coprime c.b c.p →
      ∃ q, exec .div s = .next (s.succeeded q 0) ∧ q < 2 ^ c.m.toNat ∧ gfMul c.m.toNat c.p q c.b = c.a

/-- 45_invert_divide.md R167: the laws of the inversion unit: with an irreducible `p` a nonzero element times its inverse is
1; INV of 0 fails with `ZERO_HAS_NO_INVERSE`; division is multiplication by the inverse, failing when that fails; and with an
irreducible `p` multiplying back undoes division. -/
def Obligations.InversionAndDivisionLaws : Prop :=
  (∀ m p a : Nat, 1 ≤ m → deg p = m → Irred p → a ≠ 0 → a < 2 ^ m →
    ∃ x, gfInv p a = some x ∧ gfMul m p a x = 1) ∧
  (∀ (s : State) (c : Snapshot), s.inflight = some c → c.FieldLoaded s.cfg → c.a = 0 →
    exec .inv s = .next (s.failed .zeroHasNoInverse)) ∧
  (∀ m p a b : Nat, a < 2 ^ m → b < 2 ^ m → b ≠ 0 →
    gfDiv m p a b = (gfInv p b).map (fun x => gfMul m p a x)) ∧
  (∀ m p a b : Nat, 1 ≤ m → deg p = m → Irred p → a < 2 ^ m → b < 2 ^ m → b ≠ 0 →
    ∃ q, gfDiv m p a b = some q ∧ gfMul m p q b = a)

/-! ### Registers and bus accesses -/

/-- 10_state.md R21 to R26, 20_memory.md R51, R52, 70_reset_and_hazards.md R238: for every word `k < NW`, at the offsets of the
register map. A write at 0x0800, 0x1000 or 0x1800 plus `4k` replaces word `k` of A, B or P, bits `32k+31 .. 32k`, and nothing else
of the whole state (so the next acceptance takes it); it reads back, and every other aligned offset reads as before. A read at
0x0800, 0x1000, 0x1800, 0x2000 or 0x2800 plus `4k` answers word `k` of A, B, P, RES or REM, bits `32k+31 .. 32k` (the host side's
field for the answer is the model's choice, log 10). -/
def Obligations.WideWordWriteReadsBack : Prop :=
  ∀ (s : State) (k : Nat) (v : Word), s.cfg.wf = true → k < nw s.cfg →
    busAccess (.write (s.cfg.blockBase + (0x0800 + 4 * k)) 4 v) s = .next { s with a := putWord s.a k v } ∧
    busAccess (.write (s.cfg.blockBase + (0x1000 + 4 * k)) 4 v) s = .next { s with b := putWord s.b k v } ∧
    busAccess (.write (s.cfg.blockBase + (0x1800 + 4 * k)) 4 v) s = .next { s with p := putWord s.p k v } ∧
    (∀ base ∈ [0x0800, 0x1000, 0x1800], ∃ t,
      busAccess (.write (s.cfg.blockBase + (base + 4 * k)) 4 v) s = .next t ∧ readWord t (base + 4 * k) = v ∧
      ∀ off, off % 4 = 0 → off ≠ base + 4 * k → readWord t off = readWord s off) ∧
    (∀ q ∈ [(0x0800, s.a), (0x1000, s.b), (0x1800, s.p), (0x2000, s.res), (0x2800, s.rem)],
      busAccess (.read (s.cfg.blockBase + (q.1 + 4 * k)) 4) s =
        .next { s with env := { s.env with rdata := some (wordAt q.2 k) } }) ∧
    ∀ x i : Nat,
      (i < 32 → (wordAt x k).getLsbD i = x.testBit (32 * k + i)) ∧
      (putWord x k v).testBit i = if 32 * k ≤ i ∧ i < 32 * k + 32 then v.getLsbD (i - 32 * k) else x.testBit i

/-- 20_memory.md R52: a value written to a wide register is the concatenation of its `NW` words. The `NW` bus writes of the words of
`v`, in order, at the offsets of A, B or P leave that register holding `v`, whatever it held before, and nothing else changed. The
words read at the offsets of A, B, P, RES or REM, loaded in order into one temporary as `rd` does (30_encoding.md R76; the parts of
a temporary are the model's reading, log 8), give that register's value, whatever the temporary held before. -/
def Obligations.WideValueIsTheConcatenationOfItsWords : Prop :=
  ∀ (s : State) (v : Nat), s.cfg.wf = true → Fits s.cfg v →
    (Fits s.cfg s.a →
      busAccesses ((List.range (nw s.cfg)).map fun k => .write (s.cfg.blockBase + (0x0800 + 4 * k)) 4 (wordAt v k)) s =
        .next { s with a := v }) ∧
    (Fits s.cfg s.b →
      busAccesses ((List.range (nw s.cfg)).map fun k => .write (s.cfg.blockBase + (0x1000 + 4 * k)) 4 (wordAt v k)) s =
        .next { s with b := v }) ∧
    (Fits s.cfg s.p →
      busAccesses ((List.range (nw s.cfg)).map fun k => .write (s.cfg.blockBase + (0x1800 + 4 * k)) 4 (wordAt v k)) s =
        .next { s with p := v }) ∧
    ∀ q ∈ [(0x0800, s.a), (0x1000, s.b), (0x1800, s.p), (0x2000, s.res), (0x2800, s.rem)], Fits s.cfg q.2 → ∀ y,
      (List.range (nw s.cfg)).foldl
        (fun y k => loadedValue y (if k = 0 then none else some k) (readWord s (q.1 + 4 * k))) y = q.2

/-- 20_memory.md R54: reads of CMD, of reserved offsets, of non-storage words and of reserved fields give 0; writes to reserved
offsets, reserved fields, non-storage words and the read-only registers change nothing; neither is an error. -/
def Obligations.ReservedReadsZeroAndIgnoresWrites : Prop :=
  ∀ (s : State) (v : Word), s.cfg.wf = true →
    (∀ off, off % 4 = 0 → (off = 0x0004 ∨ (0x0010 ≤ off ∧ off < 0x0800) ∨
        ∃ r k, nw s.cfg ≤ k ∧ k < 512 ∧ off = span r + 4 * k) →
      ∃ t, busAccess (.read (s.cfg.blockBase + off) 4) s = .next t ∧ t.env.rdata = some 0) ∧
    (∀ off, off % 4 = 0 → (off = 0x0000 ∨ off = 0x000C ∨ (0x0010 ≤ off ∧ off < 0x0800) ∨
        (0x2000 ≤ off ∧ off < 0x3000) ∨ ∃ r k, nw s.cfg ≤ k ∧ k < 512 ∧ off = span r + 4 * k) →
      busAccess (.write (s.cfg.blockBase + off) 4 v) s = .next s) ∧
    busAccess (.write (s.cfg.blockBase + 0x0008) 4 v) s =
      busAccess (.write (s.cfg.blockBase + 0x0008) 4 (v &&& 0x0000FFFF)) s ∧
    (readWord s 0x0008).extractLsb' 16 16 = 0 ∧ (readWord s 0x0000).extractLsb' 2 2 = 0 ∧
    (readWord s 0x0000).extractLsb' 8 24 = 0

/-- 10_state.md R24: a write to M stores bits 15:0, any value; bits 31:16 are ignored and read 0; nothing else changes. -/
def Obligations.MRegisterStoresLowHalf : Prop :=
  ∀ (s : State) (v : Word),
    busAccess (.write (s.cfg.blockBase + 0x0008) 4 v) s = .next { s with m := v.extractLsb' 0 16 } ∧
    readWord { s with m := v.extractLsb' 0 16 } 0x0008 = v &&& 0x0000FFFF

/-- 20_memory.md R56: a read changes nothing of the block (only the answer on the bus, a field of the host side, log 10);
a write away from CMD issues no command and completes none: STATUS, IF, RES and REM stay. -/
def Obligations.OnlyCmdWritesHaveSideEffects : Prop :=
  (∀ (s t : State) (addr width : Nat), busAccess (.read addr width) s = .next t →
    ∃ w, t = { s with env := { s.env with rdata := some w } } ∧ w = readWord s (addr - s.cfg.blockBase)) ∧
  (∀ (s t : State) (addr width : Nat) (v : Word), busAccess (.write addr width v) s = .next t →
    addr ≠ s.cfg.blockBase + 0x0004 →
      t.status = s.status ∧ t.inflight = s.inflight ∧ t.res = s.res ∧ t.rem = s.rem)

/-- 20_memory.md R53: an access to the window that is not 4 bytes wide at a multiple of 4 is a fault, which changes no state and
returns no data; every aligned 32-bit access to the window completes, a read with a word. -/
def Obligations.MalformedAccessIsABusError : Prop :=
  ∀ (s : State) (addr width : Nat) (v : Word), s.cfg.blockBase ≤ addr → addr < s.cfg.blockBase + 0x3000 →
    (width = 4 → (addr - s.cfg.blockBase) % 4 = 0 →
      (∃ t w, busAccess (.read addr width) s = .next t ∧ t.env.rdata = some w) ∧
      ∃ t, busAccess (.write addr width v) s = .next t) ∧
    (¬ (width = 4 ∧ (addr - s.cfg.blockBase) % 4 = 0) →
      busAccess (.read addr width) s = .fault .busError ∧ busAccess (.write addr width v) s = .fault .busError)

/-- 20_memory.md R51: an address outside the window is the platform's, so the model refuses the access by name. (The model's
choices: that an access belongs to the window when its first byte does, log 7; and that addresses are numbers without bound, so
that the window never wraps and every address below `BLOCK_BASE` or from `BLOCK_BASE + 0x3000` up is outside it, log 22.) -/
def Obligations.AccessOutsideWindowIsRefused : Prop :=
  ∀ (s : State) (addr width : Nat) (v : Word), ¬ (s.cfg.blockBase ≤ addr ∧ addr < s.cfg.blockBase + 0x3000) →
    busAccess (.read addr width) s = .refused .platformAddress ∧
    busAccess (.write addr width v) s = .refused .platformAddress

/-- 10_state.md R27, 60_exceptions.md R200: the layout of STATUS and the codes of ERR. -/
def Obligations.StatusWordLayout : Prop :=
  (∀ s : State, (readWord s 0x0000).getLsbD 0 = s.status.busy ∧ (readWord s 0x0000).getLsbD 1 = s.status.done ∧
    (readWord s 0x0000).extractLsb' 2 2 = 0 ∧ (readWord s 0x0000).extractLsb' 4 4 = s.status.err.code ∧
    (readWord s 0x0000).extractLsb' 8 24 = 0) ∧
  ErrCode.none.code = 0 ∧ ErrCode.divisionByZero.code = 1 ∧ ErrCode.zeroHasNoInverse.code = 2 ∧
  ErrCode.noInverseExists.code = 3 ∧ ErrCode.badField.code = 4 ∧ ErrCode.operandRange.code = 5 ∧
  ErrCode.illegalCommand.code = 6

/-- 10_state.md R32: PARAM reads `M_MAX` in bits 15:0 and `NW = ceil(2 * M_MAX / 32)` in bits 31:16, ignores writes, and is
not changed by reset; in the test configuration it reads 0x00010010. -/
def Obligations.ParamReadsTheParameters : Prop :=
  (∀ s : State, s.cfg.wf = true →
    ((readWord s 0x000C).extractLsb' 0 16).toNat = s.cfg.mMax ∧
    ((readWord s 0x000C).extractLsb' 16 16).toNat = (2 * s.cfg.mMax + 31) / 32 ∧
    (∀ v, busAccess (.write (s.cfg.blockBase + 0x000C) 4 v) s = .next s) ∧
    readWord s.resetEvent 0x000C = readWord s 0x000C) ∧
  readWord State.reset 0x000C = 0x00010010

/-! ### Reset -/

/-- 70_reset_and_hazards.md R230: the reset event, in any state, one with a command in flight too: every register takes its
reset value, IF is empty, the parameters (PARAM) are not changed. -/
def Obligations.ResetEventSetsEveryRegister : Prop :=
  ∀ (s : State) (rest : List Turn), s.env.schedule = .reset :: rest →
    ∃ t, step s = .next t ∧ t.a = 0 ∧ t.b = 0 ∧ t.p = 0 ∧ t.m = 0 ∧ t.res = 0 ∧ t.rem = 0 ∧
      t.status = { busy := false, done := false, err := .none } ∧ t.inflight = none ∧ t.cfg = s.cfg ∧
      readWord t 0x000C = readWord s 0x000C

/-- 70_reset_and_hazards.md R232: right after reset M and P are 0; and on a block that is as after reset but for what the host has
written to A, B, M and P, MUL, DIV, MOD and INV complete with `BAD_FIELD` unless a field is loaded (so with M and P 0), while ADD
and SUB succeed, and so does DIVREM with a nonzero divisor, whatever M and P hold. -/
def Obligations.FieldCommandsFailUntilFieldIsLoaded : Prop :=
  ∀ (cfg : Config) (a b p : Nat) (m : BitVec 16) (s : State), Fits cfg a → Fits cfg b → Fits cfg p →
    s = { State.resetOf cfg with a := a, b := b, m := m, p := p } →
    (State.resetOf cfg).m = 0 ∧ (State.resetOf cfg).p = 0 ∧
    (m = 0 → p = 0 → ∀ w, ¬ (s.snapshot w).FieldLoaded cfg) ∧
    (∀ i ∈ [Instr.mul, .div, .mod, .inv], ¬ (s.snapshot (encode i)).FieldLoaded cfg →
      exec i (s.accept (encode i)) = .next ((s.accept (encode i)).failed .badField)) ∧
    (∀ i ∈ [Instr.add, .sub],
      exec i (s.accept (encode i)) = .next ((s.accept (encode i)).succeeded (a ^^^ b) 0)) ∧
    (b ≠ 0 → ∃ q r, exec .divrem (s.accept (encode .divrem)) = .next ((s.accept (encode .divrem)).succeeded q r) ∧
      a = clmul q b ^^^ r ∧ deg r < deg b)

/-- The invariant holds right after reset, with any legal parameters and any host side in its one form; at `State.reset` too
(00_scope.md R6, 10_state.md R20 to R33). -/
def Obligations.ResetMeetsTheInvariant : Prop :=
  (∀ (cfg : Config) (env : Env), cfg.wf = true → tempWf env.temps = true →
    State.Inv { State.resetOf cfg with env := env }) ∧ State.reset.Inv

/-! ### Whole-machine rules -/

/-- Every step keeps the invariant, from every state that meets it (10_state.md R20, R27 to R30, R33; 00_scope.md R6): the wide
registers and the snapshot hold `WR` bits, BUSY is 1 exactly when IF is not empty, BUSY and DONE never hold together, ERR is 0
unless a command has completed since acceptance or reset, and the parameters stay legal. -/
def Obligations.EveryStepKeepsTheInvariant : Prop :=
  ∀ s t : State, s.Inv → step s = .next t → t.Inv ∧ t.cfg = s.cfg

/-- 10_state.md R28, in every state a run reaches, whatever the parameters, the host program and the schedule: BUSY equals 1
exactly when IF is not empty; and while it does, DONE and ERR are 0 (R27, R29, R30). -/
def Obligations.BusyExactlyWhenInFlight : Prop :=
  ∀ s : State, Reachable s →
    (s.status.busy = true ↔ s.inflight ≠ none) ∧
    (s.status.busy = true → s.status.done = false ∧ s.status.err = .none)

/-- 10_state.md R33, 70_reset_and_hazards.md R240: while a command is in flight no host line and no bus access changes the
snapshot, STATUS, RES or REM. -/
def Obligations.HostCannotDisturbTheCommandInFlight : Prop :=
  ∀ (s t : State) (c : Snapshot), s.inflight = some c →
    (∃ rest, s.env.schedule = .host :: rest ∨ ∃ acc, s.env.schedule = .access acc :: rest) → step s = .next t →
      t.inflight = some c ∧ t.status = s.status ∧ t.res = s.res ∧ t.rem = s.rem

/-- 10_state.md R25, R26: RES and REM change only by a successful completion or by reset. -/
def Obligations.ResultsChangeOnlyByCompletionOrReset : Prop :=
  ∀ s t : State, step s = .next t → (t.res ≠ s.res ∨ t.rem ≠ s.rem) →
    (nextTurn s = .engine ∧ s.inflight ≠ none ∧ t.inflight = none ∧
      t.status = { busy := false, done := true, err := .none }) ∨
    nextTurn s = .reset

/-- 20_memory.md R59: once no command is in flight, every step keeps RES, REM and STATUS (and so what a read of them returns)
until a command is accepted or a reset comes. -/
def Obligations.ResultsStayUntilNextAcceptance : Prop :=
  ∀ s t : State, s.inflight = none → step s = .next t →
    nextTurn s = .reset ∨ (t.res = s.res ∧ t.rem = s.rem ∧
      ((t.inflight = none ∧ t.status = s.status) ∨
       (∃ c, t.inflight = some c ∧ t.status = { busy := true, done := false, err := .none })))

/-- 70_reset_and_hazards.md R235: two commands with no wait between them. If the engine's step falls after the second write,
that write is dropped and only the first command runs; if it falls between, both run. -/
def Obligations.OverrunHasTwoOutcomes : Prop :=
  ∀ (s : State) (w1 w2 : Word) (acc1 acc2 : BusAccess), s.inflight = none →
    acc1 = .write (s.cfg.blockBase + 0x0004) 4 w1 → acc2 = .write (s.cfg.blockBase + 0x0004) 4 w2 →
    (∃ s1 s2, busAccess acc1 s = .next s1 ∧ busAccess acc2 s1 = .next s2 ∧ s2 = s1 ∧
      ∃ c, s2.inflight = some c ∧ c.w = w1) ∧
    (∃ s1 s2 s3, busAccess acc1 s = .next s1 ∧ engineStep s1 = .next s2 ∧ busAccess acc2 s2 = .next s3 ∧
      ∃ c, s3.inflight = some c ∧ c.w = w2)

/-! ### The host side -/

/-- 30_encoding.md R75: a `st` line at an aligned offset of the window is one write, a `ld` line one read; then the next line.
`st OFF, V` with a value of 32 bits writes that value. Here too, as the model's choices: a wider value is cut, and `k` names the
word of the value that `wr` stores (log 20); `OFF` is a constant (log 24); `ld OFF -> tN` sets the whole temporary, of no fixed width, and `ld OFF -> tN.k`
its word `k` alone (log 8); and the word the bus answers is in the host side's `rdata` (log 10). -/
def Obligations.HostLinesMakeOneTransaction : Prop :=
  ∀ (s : State) (off t k : Nat) (v : HostVal), off < 0x3000 → off % 4 = 0 → tempWf s.env.temps = true →
    (s.env.prog[s.env.pc]? = some (.st off v k) →
      ∃ w u, (∀ i < 32, w.getLsbD i = (hostValue s.env.temps v).testBit (32 * k + i)) ∧
        (k = 0 → hostValue s.env.temps v < 2 ^ 32 → w.toNat = hostValue s.env.temps v) ∧
        busAccess (.write (s.cfg.blockBase + off) 4 w) s = .next u ∧
        hostStep s = .next { u with env := { u.env with pc := s.env.pc + 1 } }) ∧
    (s.env.prog[s.env.pc]? = some (.ld off t none) →
      ∃ u, hostStep s = .next u ∧ u.env.rdata = some (readWord s off) ∧ u.env.pc = s.env.pc + 1 ∧
        (∀ n, tempGet u.env.temps n = if n = t then (readWord s off).toNat else tempGet s.env.temps n) ∧
        u.env.schedule = s.env.schedule ∧ u.env.prog = s.env.prog ∧ u = { s with env := u.env }) ∧
    (s.env.prog[s.env.pc]? = some (.ld off t (some k)) →
      ∃ u, hostStep s = .next u ∧ u.env.rdata = some (readWord s off) ∧ u.env.pc = s.env.pc + 1 ∧
        (∀ n, n ≠ t → tempGet u.env.temps n = tempGet s.env.temps n) ∧
        wordAt (tempGet u.env.temps t) k = readWord s off ∧
        (∀ j, j ≠ k → wordAt (tempGet u.env.temps t) j = wordAt (tempGet s.env.temps t) j) ∧
        u.env.schedule = s.env.schedule ∧ u.env.prog = s.env.prog ∧ u = { s with env := u.env })

/-- 30_encoding.md R75: host arithmetic and host control flow make no bus transaction: they change the temporaries and the
line number only. A branch goes to its line when its condition holds, and else on; `halt` ends the program. (The model's choices: host
arithmetic and comparisons are on natural numbers, a constant over 32 bits too, log 9; temporaries have no fixed width, log 8; and
`MASK` is a constant of any size, one over 32 bits too, log 24. That the host's turn at `halt` changes
nothing, so that the line number stays, is the model's reading of 'ending the program', DEDUCED, log 11.) -/
def Obligations.HostControlFlowMakesNoTransaction : Prop :=
  ∀ (s : State) (t mask l : Nat) (v : HostVal) (e : HostExpr), tempWf s.env.temps = true →
    (s.env.prog[s.env.pc]? = some (.assign t e) → ∃ temps,
      hostStep s = .next { s with env := { s.env with pc := s.env.pc + 1, temps := temps } } ∧
      ∀ n, tempGet temps n = if n = t then hostEval s.env.temps e else tempGet s.env.temps n) ∧
    (s.env.prog[s.env.pc]? = some (.bnz t mask l) → hostStep s = .next { s with env := { s.env with
      pc := if tempGet s.env.temps t &&& mask ≠ 0 then l else s.env.pc + 1 } }) ∧
    (s.env.prog[s.env.pc]? = some (.beq t v l) → hostStep s = .next { s with env := { s.env with
      pc := if tempGet s.env.temps t = hostValue s.env.temps v then l else s.env.pc + 1 } }) ∧
    (s.env.prog[s.env.pc]? = some (.bne t v l) → hostStep s = .next { s with env := { s.env with
      pc := if tempGet s.env.temps t ≠ hostValue s.env.temps v then l else s.env.pc + 1 } }) ∧
    (s.env.prog[s.env.pc]? = some .halt → hostStep s = .next s)

/-- 30_encoding.md R76, `wait`: the two lines it expands to, at `pos`, loop while BUSY is 1 and go on when it is 0; the block is
not changed by polling (20_memory.md R56). (How a temporary holds the word read is the model's choice, log 8, and so is the
host side's field for the bus answer, log 10.) -/
def Obligations.WaitLoopsWhileBusy : Prop :=
  ∀ (s : State) (pos : Nat), s.env.pc = pos → tempWf s.env.temps = true →
    s.env.prog[pos]? = some (.ld 0x0000 9 none) → s.env.prog[pos + 1]? = some (.bnz 9 0x1 pos) →
      ∃ u v, hostStep s = .next u ∧ hostStep u = .next v ∧ v = { s with env := v.env } ∧
        v.env.pc = if s.status.busy then pos else pos + 2

/-- 30_encoding.md R76: the expansions of the pseudo-instructions, for a block with `n` words and a program in which the line
stands at `pos`. (The parts `tN.k` of a temporary in `rd` are the model's reading, log 8; which word of a value `st` stores is
part of the model's line, log 20; and R76 gives `wr` for A, B and P only: that RES and REM expand by the same pattern is the model's
choice, log 25, and so is the expansion of `setm` with a constant over 32 bits.) -/
def Obligations.PseudoInstructionsExpand : Prop :=
  ∀ (n pos : Nat) (labels : List (Nat × Nat)) (v : HostVal) (i : Instr) (t : Nat),
    expand n labels pos (.setm v) = some [.st 0x0008 v 0] ∧
    (∀ r, expand n labels pos (.wr r v) = some ((List.range n).map fun k => .st (span r + 4 * k) v k)) ∧
    expand n labels pos (.cmd i) = some [.st 0x0004 (.const (encode i).toNat) 0] ∧
    expand n labels pos .wait = some [.ld 0x0000 9 none, .bnz 9 0x1 pos] ∧
    (∀ r, ∃ l, expand n labels pos (.rd r t) = some l ∧ l.length = n ∧
      ∀ k < n, l[k]? = some (.ld (span r + 4 * k) t (if k = 0 then none else some k))) ∧
    expand n labels pos (.err t) =
      some [.ld 0x0000 t none, .assign t (.and (.shr (.val (.temp t)) 4) (.val (.const 0xF)))]

/-- 10_state.md R36 to R38: the registry gives the table's polynomial, 0x11B for degree 8 in every table, and x^m + 1, of degree
`m`, for an unlisted degree; the source's other literal, of degree `m - 1`, makes every field command fail with `BAD_FIELD`.
x^m + 1 is divisible by x + 1 for every `m >= 1`, so it is irreducible only for `m = 1`. (The model's choices: that the first
entry of a degree wins, log 19; and that any further entries are legal, log 23.) -/
def Obligations.RegistryFallback : Prop :=
  (∀ (cfg : Config) (m : Nat), registryEntry m (registryTable cfg) = none →
    registry cfg m = 1 <<< m ||| 1 ∧ (1 ≤ m → deg (registry cfg m) = m)) ∧
  (∀ (cfg : Config) (m p : Nat), registryEntry m (registryTable cfg) = some p → registry cfg m = p) ∧
  (∀ cfg : Config, registry cfg 8 = 0x11B) ∧
  (∀ (s : State) (c : Snapshot), s.inflight = some c → 1 ≤ c.m.toNat →
    c.p = 1 <<< (c.m.toNat - 1) ||| 1 →
      ∀ i ∈ [Instr.mul, .div, .mod, .inv], exec i s = .next (s.failed .badField)) ∧
  (∀ m : Nat, 1 ≤ m →
    PolyDvd 0b11 (registryDefault m) ∧ (pdivrem (registryDefault m) 0b11).2 = 0 ∧ (Irred (registryDefault m) ↔ m = 1))
end

