-- ==== Sys2Proof/Laws/Bits.lean ====
section
/-! SUPPORT. Bits of the natural numbers the wide registers hold: words, truncation, and the degree as a length. -/

namespace Sys2Proof.Machine

theorem lt_two_pow_of_testBit_false {x n : Nat} (h : ∀ i, n ≤ i → x.testBit i = false) : x < 2 ^ n :=
  Nat.lt_pow_two_of_testBit x h

theorem testBit_false_of_lt {x n i : Nat} (h : x < 2 ^ n) (hi : n ≤ i) : x.testBit i = false :=
  Nat.testBit_lt_two_pow (Nat.lt_of_lt_of_le h (Nat.pow_le_pow_right (by decide) hi))

theorem xor_lt {x y n : Nat} (hx : x < 2 ^ n) (hy : y < 2 ^ n) : x ^^^ y < 2 ^ n := Nat.xor_lt_two_pow hx hy

theorem shiftLeft_lt {x n k : Nat} (hx : x < 2 ^ n) : x <<< k < 2 ^ (n + k) := by
  rw [Nat.shiftLeft_eq, Nat.pow_add]
  exact Nat.mul_lt_mul_of_pos_right hx (Nat.two_pow_pos k)

/-- Two values with the same top bit lose it in their exclusive OR. -/
theorem xor_lt_of_top {x y n : Nat} (hx : x < 2 ^ (n + 1)) (hy : y < 2 ^ (n + 1))
    (hxn : x.testBit n = true) (hyn : y.testBit n = true) : x ^^^ y < 2 ^ n := by
  refine lt_two_pow_of_testBit_false fun i hi => ?_
  rcases Nat.eq_or_lt_of_le hi with rfl | hlt
  · simp [hxn, hyn]
  · simp [testBit_false_of_lt hx hlt, testBit_false_of_lt hy hlt]

/-! ### The degree -/

@[simp] theorem bitLen_zero : bitLen 0 = 0 := rfl

theorem deg_eq_bitLen (x : Nat) : deg x = (bitLen x : Int) - 1 := by
  unfold deg bitLen
  split <;> simp

theorem bitLen_le_iff {x k : Nat} : bitLen x ≤ k ↔ x < 2 ^ k := by
  unfold bitLen
  split
  · subst x; simp
  · rename_i h
    rw [Nat.succ_le_iff, Nat.log2_lt h]

theorem lt_two_pow_bitLen (x : Nat) : x < 2 ^ bitLen x := bitLen_le_iff.mp le_rfl

theorem lt_bitLen_iff {x k : Nat} : k < bitLen x ↔ 2 ^ k ≤ x := by
  rw [← not_iff_not, not_lt, not_le, bitLen_le_iff]

/-- `deg(x) < k` exactly when `x < 2^k` (00_scope.md R8). -/
theorem deg_lt_iff {x k : Nat} : deg x < (k : Int) ↔ x < 2 ^ k := by
  rw [deg_eq_bitLen, ← bitLen_le_iff]; omega

theorem bitLen_eq_zero {x : Nat} : bitLen x = 0 ↔ x = 0 := by
  rw [← Nat.le_zero, bitLen_le_iff]; simp

theorem bitLen_pos {x : Nat} (h : x ≠ 0) : 0 < bitLen x := Nat.pos_of_ne_zero fun e => h (bitLen_eq_zero.mp e)

theorem testBit_top {x : Nat} (h : x ≠ 0) : x.testBit (bitLen x - 1) = true := by
  by_contra hc
  have hlt : x < 2 ^ (bitLen x - 1) := by
    refine lt_two_pow_of_testBit_false fun i hi => ?_
    rcases Nat.eq_or_lt_of_le hi with rfl | hgt
    · simpa using hc
    · exact testBit_false_of_lt (lt_two_pow_bitLen x) (by omega)
  have := bitLen_le_iff.mpr hlt
  have := bitLen_pos h
  omega

theorem bitLen_eq_of {x n : Nat} (hlt : x < 2 ^ (n + 1)) (hn : x.testBit n = true) : bitLen x = n + 1 := by
  have h1 := bitLen_le_iff.mpr hlt
  have h2 : n < bitLen x := by
    by_contra hc
    have := testBit_false_of_lt (bitLen_le_iff.mp (Nat.le_of_not_lt hc)) (Nat.le_refl n)
    simp [hn] at this
  omega

theorem bitLen_shiftLeft {x : Nat} (h : x ≠ 0) (k : Nat) : bitLen (x <<< k) = bitLen x + k := by
  have hp := bitLen_pos h
  have e : bitLen x + k = (bitLen x - 1 + k) + 1 := by omega
  rw [e]
  refine bitLen_eq_of ?_ ?_
  · rw [← e]; exact shiftLeft_lt (lt_two_pow_bitLen x)
  · rw [Nat.testBit_shiftLeft]
    simp [testBit_top h]

/-- The XOR of a division step clears the top bit of `r` and sets no higher one (43_long_division.md R140). -/
theorem bitLen_cancel_lt {r b : Nat} (hb : b ≠ 0) (h : bitLen b ≤ bitLen r) :
    bitLen (r ^^^ b <<< (bitLen r - bitLen b)) < bitLen r := by
  have hbp := bitLen_pos hb
  have hr : r ≠ 0 := fun e => by subst e; simp at h; omega
  have hs : bitLen (b <<< (bitLen r - bitLen b)) = bitLen r := by rw [bitLen_shiftLeft hb]; omega
  have hsne : b <<< (bitLen r - bitLen b) ≠ 0 := fun e => by rw [e] at hs; simp at hs; omega
  have key : r ^^^ b <<< (bitLen r - bitLen b) < 2 ^ (bitLen r - 1) := by
    have e : bitLen r - 1 + 1 = bitLen r := by omega
    refine xor_lt_of_top ?_ ?_ (testBit_top hr) ?_
    · rw [e]; exact lt_two_pow_bitLen r
    · rw [e]; exact bitLen_le_iff.mp hs.le
    · have := testBit_top hsne; rwa [hs] at this
  have := bitLen_le_iff.mpr key
  omega

/-- The shift of a division step as a difference of lengths. -/
theorem deg_sub_toNat {r b : Nat} : (deg r - deg b).toNat = bitLen r - bitLen b := by
  rw [deg_eq_bitLen, deg_eq_bitLen]; omega

theorem deg_le_iff {b r : Nat} : deg b ≤ deg r ↔ bitLen b ≤ bitLen r := by
  rw [deg_eq_bitLen, deg_eq_bitLen]; omega

/-! ### Words of a wide value -/

theorem zext_lt (n v : Nat) : zext n v < 2 ^ n := Nat.mod_lt _ (Nat.two_pow_pos n)

theorem zext_eq_self {n v : Nat} (h : v < 2 ^ n) : zext n v = v := Nat.mod_eq_of_lt h

@[simp] theorem zext_zero (n : Nat) : zext n 0 = 0 := by simp [zext]

theorem wordAt_getLsbD (x k i : Nat) (hi : i < 32) : (wordAt x k).getLsbD i = x.testBit (32 * k + i) := by
  rw [wordAt, BitVec.getLsbD_ofNat, Nat.testBit_shiftRight, decide_eq_true hi, Bool.true_and]

theorem putWord_testBit (x k : Nat) (v : Word) (i : Nat) :
    (putWord x k v).testBit i =
      if 32 * k ≤ i ∧ i < 32 * (k + 1) then v.getLsbD (i - 32 * k) else x.testBit i := by
  have hv : v.toNat.testBit (i - 32 * k) = v.getLsbD (i - 32 * k) := rfl
  simp only [putWord, Nat.testBit_or, Nat.testBit_shiftLeft, Nat.testBit_shiftRight, Nat.testBit_mod_two_pow, hv]
  by_cases h1 : 32 * k ≤ i
  · by_cases h2 : i < 32 * (k + 1)
    · simp [h1, h2, Nat.not_le.mpr h2, Nat.not_lt.mpr h1]
    · have h3 : 32 * (k + 1) ≤ i := by omega
      have h4 : v.getLsbD (i - 32 * k) = false := BitVec.getLsbD_of_ge _ _ (by omega)
      have h5 : 32 * (k + 1) + (i - 32 * (k + 1)) = i := by omega
      simp [h1, h2, h3, h4, h5, Nat.not_lt.mpr h1]
  · have h3 : ¬ 32 * (k + 1) ≤ i := by omega
    simp [h1, h3, Nat.lt_of_not_le h1]

/-- Writing the words `k < n` of `v`, in order, replaces the bits below `32n` (20_memory.md R52). -/
theorem foldl_putWord_testBit (v n x i : Nat) :
    ((List.range n).foldl (fun y k => putWord y k (wordAt v k)) x).testBit i =
      if i < 32 * n then v.testBit i else x.testBit i := by
  induction n with
  | zero => simp
  | succ n ih =>
    rw [List.range_succ, List.foldl_append, List.foldl_cons, List.foldl_nil, putWord_testBit, ih]
    by_cases h : 32 * n ≤ i ∧ i < 32 * (n + 1)
    · rw [if_pos h, if_pos h.2, wordAt_getLsbD _ _ _ (by omega)]; congr 1; omega
    · rw [if_neg h]
      split <;> split <;> first | rfl | omega

theorem wordAt_putWord_same (x k : Nat) (v : Word) : wordAt (putWord x k v) k = v := by
  refine BitVec.eq_of_getLsbD_eq fun i hi => ?_
  rw [wordAt_getLsbD _ _ _ hi, putWord_testBit, if_pos (by omega)]
  congr 1; omega

theorem wordAt_putWord_other (x : Nat) {k j : Nat} (v : Word) (h : j ≠ k) :
    wordAt (putWord x k v) j = wordAt x j := by
  refine BitVec.eq_of_getLsbD_eq fun i hi => ?_
  rw [wordAt_getLsbD _ _ _ hi, wordAt_getLsbD _ _ _ hi, putWord_testBit, if_neg (by omega)]

theorem putWord_lt {x k n : Nat} (v : Word) (hx : x < 2 ^ (32 * n)) (hk : k < n) :
    putWord x k v < 2 ^ (32 * n) := by
  refine lt_two_pow_of_testBit_false fun i hi => ?_
  rw [putWord_testBit, if_neg (by omega)]
  exact testBit_false_of_lt hx hi

/-- Two values below `2^(32n)` with the same `n` words are equal (20_memory.md R52). -/
theorem eq_of_wordAt_eq {x y n : Nat} (hx : x < 2 ^ (32 * n)) (hy : y < 2 ^ (32 * n))
    (h : ∀ k < n, wordAt x k = wordAt y k) : x = y := by
  refine Nat.eq_of_testBit_eq fun i => ?_
  by_cases hi : i < 32 * n
  · have hk : i / 32 < n := by omega
    have h1 := wordAt_getLsbD x (i / 32) (i % 32) (Nat.mod_lt _ (by decide))
    have h2 := wordAt_getLsbD y (i / 32) (i % 32) (Nat.mod_lt _ (by decide))
    rw [Nat.div_add_mod] at h1 h2
    rw [← h1, ← h2, h _ hk]
  · rw [testBit_false_of_lt hx (Nat.le_of_not_lt hi), testBit_false_of_lt hy (Nat.le_of_not_lt hi)]

end Sys2Proof.Machine
end

