-- ==== Sys2Proof/Laws/Gf2Poly.lean ====
section
/-! SUPPORT. A natural number as a polynomial over the field of two elements, the reading of 00_scope.md R7. It carries
exclusive OR to addition, shifts to products by powers of X, and the carry-less product to the product, so that the laws of
the commands follow from those of polynomials over a field. -/

open Polynomial

namespace Sys2Proof.Machine

/-- The polynomial whose coefficient of X^i is bit `i` of `x` (00_scope.md R7). -/
noncomputable def toPoly (x : Nat) : (ZMod 2)[X] :=
  ∑ i ∈ Finset.range (bitLen x), if x.testBit i then X ^ i else 0

theorem toPoly_coeff (x n : Nat) : (toPoly x).coeff n = if x.testBit n then 1 else 0 := by
  have hterm : ∀ i, (if x.testBit i then (X : (ZMod 2)[X]) ^ i else 0).coeff n
      = if i = n then (if x.testBit n then 1 else 0) else 0 := by
    intro i
    by_cases hi : i = n
    · subst hi; by_cases hb : x.testBit i <;> simp [hb]
    · by_cases hb : x.testBit i <;> simp [hb, hi, coeff_X_pow, Ne.symm hi]
  rw [toPoly, finsetSum_coeff, Finset.sum_congr rfl fun i _ => hterm i, Finset.sum_ite_eq']
  by_cases hn : n < bitLen x
  · simp [hn]
  · have := testBit_false_of_lt (lt_two_pow_bitLen x) (Nat.le_of_not_lt hn)
    simp [hn, this]

theorem toPoly_injective : Function.Injective toPoly := by
  intro x y h
  refine Nat.eq_of_testBit_eq fun n => ?_
  have := congrArg (fun f => f.coeff n) h
  simp only [toPoly_coeff] at this
  by_cases hx : x.testBit n <;> by_cases hy : y.testBit n <;> simp_all

theorem toPoly_inj {x y : Nat} : toPoly x = toPoly y ↔ x = y := toPoly_injective.eq_iff

@[simp] theorem toPoly_zero : toPoly 0 = 0 := by simp [toPoly]

@[simp] theorem toPoly_eq_zero {x : Nat} : toPoly x = 0 ↔ x = 0 := by
  rw [← toPoly_zero, toPoly_inj]

theorem toPoly_two_pow (k : Nat) : toPoly (2 ^ k) = X ^ k := by
  ext n
  rw [toPoly_coeff, coeff_X_pow, Nat.testBit_two_pow]
  by_cases h : k = n
  · simp [h]
  · simp [h, Ne.symm h]

@[simp] theorem toPoly_one : toPoly 1 = 1 := by simpa using toPoly_two_pow 0

@[simp] theorem toPoly_xor (x y : Nat) : toPoly (x ^^^ y) = toPoly x + toPoly y := by
  ext n
  rw [coeff_add, toPoly_coeff, toPoly_coeff, toPoly_coeff, Nat.testBit_xor]
  by_cases hx : x.testBit n <;> by_cases hy : y.testBit n <;> simp [hx, hy]; decide

@[simp] theorem toPoly_shiftLeft (x k : Nat) : toPoly (x <<< k) = toPoly x * X ^ k := by
  ext n
  rw [coeff_mul_X_pow', toPoly_coeff, Nat.testBit_shiftLeft]
  by_cases h : k ≤ n
  · simp [h, toPoly_coeff]
  · simp [h]

theorem toPoly_add_self (f : (ZMod 2)[X]) : f + f = 0 := CharTwo.add_self_eq_zero f

theorem toPoly_surjective : Function.Surjective toPoly := by
  intro f
  induction f using Polynomial.induction_on' with
  | add f g hf hg =>
    obtain ⟨x, rfl⟩ := hf
    obtain ⟨y, rfl⟩ := hg
    exact ⟨x ^^^ y, toPoly_xor x y⟩
  | monomial n a =>
    have ha : a = 0 ∨ a = 1 := by revert a; decide
    rcases ha with rfl | rfl
    · exact ⟨0, by simp⟩
    · exact ⟨2 ^ n, by rw [toPoly_two_pow, X_pow_eq_monomial]⟩

theorem toPoly_clmulBelow (x y n : Nat) :
    toPoly (clmulBelow x y n) = toPoly x * ∑ i ∈ Finset.range n, if y.testBit i then X ^ i else 0 := by
  induction n with
  | zero => simp [clmulBelow]
  | succ n ih =>
    rw [clmulBelow, toPoly_xor, ih, Finset.sum_range_succ, mul_add]
    by_cases h : y.testBit n <;> simp [h]

/-- The carry-less product is the product of polynomials (00_scope.md R10). -/
@[simp] theorem toPoly_clmul (x y : Nat) : toPoly (clmul x y) = toPoly x * toPoly y := by
  rw [clmul, toPoly_clmulBelow]; rfl

/-! ### Degrees -/

theorem toPoly_degree_lt_iff {x n : Nat} : (toPoly x).degree < n ↔ x < 2 ^ n := by
  rw [degree_lt_iff_coeff_zero]
  constructor
  · intro h
    refine lt_two_pow_of_testBit_false fun i hi => ?_
    have := h i hi
    rw [toPoly_coeff] at this
    by_contra hc
    simp [Bool.not_eq_false] at hc
    simp [hc] at this
  · intro h i hi
    simp [toPoly_coeff, testBit_false_of_lt h hi]

theorem toPoly_natDegree {x : Nat} (h : x ≠ 0) : (toPoly x).natDegree = bitLen x - 1 := by
  have hne : toPoly x ≠ 0 := by simpa using h
  have hp := bitLen_pos h
  refine natDegree_eq_of_le_of_coeff_ne_zero ?_ ?_
  · rw [natDegree_le_iff_degree_le]
    have := (toPoly_degree_lt_iff (x := x) (n := bitLen x)).mpr (lt_two_pow_bitLen x)
    rw [degree_eq_natDegree hne] at this ⊢
    norm_cast at this ⊢
    omega
  · rw [toPoly_coeff, testBit_top h]; simp

theorem toPoly_degree {x : Nat} (h : x ≠ 0) : (toPoly x).degree = ((bitLen x - 1 : Nat) : WithBot Nat) := by
  rw [degree_eq_natDegree (by simpa using h), toPoly_natDegree h]

theorem toPoly_monic {x : Nat} (h : x ≠ 0) : (toPoly x).Monic := by
  rw [Monic, leadingCoeff, toPoly_natDegree h, toPoly_coeff, testBit_top h]; simp

theorem toPoly_degree_lt_degree {x y : Nat} (hy : y ≠ 0) : (toPoly x).degree < (toPoly y).degree ↔ deg x < deg y := by
  have hp := bitLen_pos hy
  rw [toPoly_degree hy, toPoly_degree_lt_iff, ← bitLen_le_iff, deg_eq_bitLen, deg_eq_bitLen]
  omega

/-! ### Divisibility -/

theorem polyDvd_iff {d x : Nat} : PolyDvd d x ↔ toPoly d ∣ toPoly x := by
  constructor
  · rintro ⟨q, rfl⟩
    exact ⟨toPoly q, toPoly_clmul d q⟩
  · rintro ⟨f, hf⟩
    obtain ⟨q, rfl⟩ := toPoly_surjective f
    exact ⟨q, toPoly_injective (by rw [toPoly_clmul, hf])⟩

theorem toPoly_isUnit {x : Nat} : IsUnit (toPoly x) ↔ x = 1 := by
  constructor
  · intro h
    have hx : x ≠ 0 := by rintro rfl; simp at h
    have hd := natDegree_eq_zero_of_isUnit h
    rw [toPoly_natDegree hx] at hd
    have hlt : x < 2 ^ 1 := bitLen_le_iff.mp (by omega)
    omega
  · rintro rfl; simp

theorem coprime_iff {x y : Nat} : Coprime x y ↔ IsCoprime (toPoly x) (toPoly y) := by
  constructor
  · intro h
    rw [← EuclideanDomain.gcd_isUnit_iff]
    obtain ⟨d, hd⟩ := toPoly_surjective (EuclideanDomain.gcd (toPoly x) (toPoly y))
    rw [← hd, toPoly_isUnit]
    refine h d (polyDvd_iff.mpr ?_) (polyDvd_iff.mpr ?_)
    · rw [hd]; exact EuclideanDomain.gcd_dvd_left _ _
    · rw [hd]; exact EuclideanDomain.gcd_dvd_right _ _
  · intro h d hx hy
    exact toPoly_isUnit.mp (h.isUnit_of_dvd' (polyDvd_iff.mp hx) (polyDvd_iff.mp hy))

theorem irred_iff {p : Nat} : Irred p ↔ Irreducible (toPoly p) := by
  constructor
  · rintro ⟨h1, h2⟩
    have hp0 : p ≠ 0 := by rintro rfl; simp [deg] at h1
    have hp1 : p ≠ 1 := by rintro rfl; revert h1; decide
    refine ⟨fun hu => hp1 (toPoly_isUnit.mp hu), fun f g hfg => ?_⟩
    obtain ⟨d, rfl⟩ := toPoly_surjective f
    rcases h2 d (polyDvd_iff.mpr ⟨g, hfg⟩) with rfl | rfl
    · left; simp
    · right
      have : g = 1 := mul_left_cancel₀ (show toPoly d ≠ 0 by simpa using hp0) (by rw [← hfg, mul_one])
      rw [this]; exact isUnit_one
  · intro h
    have hp0 : p ≠ 0 := by rintro rfl; simpa using h.ne_zero
    have hp1 : p ≠ 1 := by rintro rfl; exact h.not_isUnit (by simp)
    refine ⟨?_, fun d hd => ?_⟩
    · rw [deg_eq_bitLen]
      have h2 : ¬ bitLen p ≤ 1 := by
        rw [bitLen_le_iff]
        omega
      omega
    · obtain ⟨f, hf⟩ := polyDvd_iff.mp hd
      rcases h.isUnit_or_isUnit hf with hu | hu
      · exact Or.inl (toPoly_isUnit.mp hu)
      · right
        obtain ⟨q, rfl⟩ := toPoly_surjective f
        rw [toPoly_isUnit.mp hu, toPoly_one, mul_one] at hf
        exact (toPoly_injective hf).symm

end Sys2Proof.Machine
end

