-- ==== Sys2Proof/Laws/Division.lean ====
section
/-! SUPPORT. What the loops of `pmod` and `pdivrem` compute: the remainder and the quotient of a polynomial division. The
number of iterations given to each loop is enough (log 12). -/

open Polynomial

namespace Sys2Proof.Machine

/-! ### Reduction -/

/-- The loop of `pmod` leaves a multiple of `p` out and ends below the degree of `p`, given enough iterations. -/
theorem pmodLoop_spec {p : Nat} (hp : p ≠ 0) :
    ∀ (n x : Nat), bitLen x ≤ n →
      toPoly p ∣ toPoly x - toPoly (pmodLoop p n x) ∧ bitLen (pmodLoop p n x) < bitLen p := by
  intro n
  induction n with
  | zero =>
    intro x hx
    have hx0 : x = 0 := bitLen_eq_zero.mp (Nat.le_zero.mp hx)
    subst hx0
    simpa [pmodLoop] using bitLen_pos hp
  | succ n ih =>
    intro x hx
    rw [pmodLoop]
    split
    · rename_i h
      rw [deg_le_iff] at h
      rw [deg_sub_toNat]
      have hlt := bitLen_cancel_lt hp h
      obtain ⟨h1, h2⟩ := ih (x ^^^ p <<< (bitLen x - bitLen p)) (by omega)
      refine ⟨?_, h2⟩
      have h3 : toPoly x - toPoly (pmodLoop p n (x ^^^ p <<< (bitLen x - bitLen p)))
          = (toPoly (x ^^^ p <<< (bitLen x - bitLen p)) - toPoly (pmodLoop p n (x ^^^ p <<< (bitLen x - bitLen p))))
            - toPoly p * X ^ (bitLen x - bitLen p) := by
        rw [toPoly_xor, toPoly_shiftLeft]; ring
      rw [h3]
      exact dvd_sub h1 (dvd_mul_right _ _)
    · rename_i h
      rw [deg_le_iff] at h
      exact ⟨by simp, by omega⟩

/-- A value of lower degree than `p` that differs from `x` by a multiple of `p` is the remainder of `x`. -/
theorem toPoly_eq_modByMonic {p x r : Nat} (hp : p ≠ 0) (hd : toPoly p ∣ toPoly x - toPoly r)
    (hr : bitLen r < bitLen p) : toPoly r = toPoly x %ₘ toPoly p := by
  rw [modByMonic_eq_of_dvd_sub (toPoly_monic hp) hd, eq_comm, modByMonic_eq_self_iff (toPoly_monic hp),
    toPoly_degree_lt_degree hp, deg_eq_bitLen, deg_eq_bitLen]
  omega

theorem toPoly_pmodLoop {p : Nat} (hp : p ≠ 0) {n x : Nat} (h : bitLen x ≤ n) :
    toPoly (pmodLoop p n x) = toPoly x %ₘ toPoly p :=
  toPoly_eq_modByMonic hp (pmodLoop_spec hp n x h).1 (pmodLoop_spec hp n x h).2

/-- `pmod(p, x)` is the remainder of `x` modulo `p` (44_modulo_reduce.md R150). -/
theorem toPoly_pmod {p : Nat} (hp : p ≠ 0) (x : Nat) : toPoly (pmod p x) = toPoly x %ₘ toPoly p :=
  toPoly_pmodLoop hp le_rfl

theorem bitLen_pmod_lt {p : Nat} (hp : p ≠ 0) (x : Nat) : bitLen (pmod p x) < bitLen p :=
  (pmodLoop_spec hp _ x le_rfl).2

/-- More iterations than `bitLen x` change nothing (log 12). -/
theorem pmodLoop_eq_pmod {p : Nat} (hp : p ≠ 0) {n x : Nat} (h : bitLen x ≤ n) : pmodLoop p n x = pmod p x :=
  toPoly_injective (by rw [toPoly_pmodLoop hp h, toPoly_pmod hp])

/-- A value of smaller degree is its own reduction (44_modulo_reduce.md R152). -/
theorem pmod_eq_self {p x : Nat} (hp : p ≠ 0) (h : bitLen x < bitLen p) : pmod p x = x := by
  refine toPoly_injective ?_
  rw [toPoly_pmod hp]
  exact (toPoly_eq_modByMonic hp (by simp) h).symm

/-- With `deg(p) = m` the remainder is below `2^m` (44_modulo_reduce.md R152). -/
theorem pmod_lt {p m : Nat} (hm : deg p = m) (x : Nat) : pmod p x < 2 ^ m := by
  have hp : p ≠ 0 := by rintro rfl; simp [deg] at hm
  have := bitLen_pmod_lt hp x
  rw [deg_eq_bitLen] at hm
  exact bitLen_le_iff.mp (by omega)

/-! ### Long division -/

theorem or_eq_xor_of_testBit_false {q d : Nat} (h : q.testBit d = false) : q ||| 1 <<< d = q ^^^ 1 <<< d := by
  refine Nat.eq_of_testBit_eq fun i => ?_
  rw [Nat.testBit_or, Nat.testBit_xor, Nat.one_shiftLeft, Nat.testBit_two_pow]
  by_cases hi : d = i
  · subst hi; simp [h]
  · simp [hi]

/-- The loop of `pdivrem` keeps `q * b + r`, and ends with a remainder of lower degree than `b`, given enough iterations
(43_long_division.md R142). -/
theorem pdivremLoop_spec {b : Nat} (hb : b ≠ 0) :
    ∀ (n q r : Nat), bitLen r ≤ n → (∀ i, i + bitLen b ≤ bitLen r → q.testBit i = false) →
      toPoly (pdivremLoop b n q r).1 * toPoly b + toPoly (pdivremLoop b n q r).2 = toPoly q * toPoly b + toPoly r ∧
        bitLen (pdivremLoop b n q r).2 < bitLen b := by
  intro n
  induction n with
  | zero =>
    intro q r hr _
    have hr0 : r = 0 := bitLen_eq_zero.mp (Nat.le_zero.mp hr)
    subst hr0
    simpa [pdivremLoop] using bitLen_pos hb
  | succ n ih =>
    intro q r hr hq
    rw [pdivremLoop]
    split
    · rename_i h
      rw [deg_le_iff] at h
      simp only [deg_sub_toNat]
      have hlt := bitLen_cancel_lt hb h
      obtain ⟨h1, h2⟩ := ih (q ||| 1 <<< (bitLen r - bitLen b)) (r ^^^ b <<< (bitLen r - bitLen b)) (by omega) (by
        intro i hi
        rw [Nat.testBit_or, hq i (by omega), Nat.one_shiftLeft, Nat.testBit_two_pow]
        simp; omega)
      refine ⟨h1.trans ?_, h2⟩
      have h0 : q.testBit (bitLen r - bitLen b) = false := hq _ (by omega)
      rw [or_eq_xor_of_testBit_false h0, toPoly_xor, toPoly_xor, toPoly_shiftLeft, toPoly_shiftLeft, toPoly_one]
      have := toPoly_add_self (X ^ (bitLen r - bitLen b) * toPoly b)
      linear_combination this
    · rename_i h
      rw [deg_le_iff] at h
      exact ⟨rfl, Nat.lt_of_not_le h⟩

/-- A quotient bit is set below the difference of the degrees only (43_long_division.md R143). -/
theorem pdivremLoop_fst_lt {b N : Nat} (hb : b ≠ 0) :
    ∀ (n q r : Nat), q < 2 ^ N → (bitLen b ≤ bitLen r → bitLen r - bitLen b < N) →
      (pdivremLoop b n q r).1 < 2 ^ N := by
  intro n
  induction n with
  | zero => intro q r hq _; exact hq
  | succ n ih =>
    intro q r hq hr
    rw [pdivremLoop]
    split
    · rename_i h
      rw [deg_le_iff] at h
      simp only [deg_sub_toNat]
      have hlt := bitLen_cancel_lt hb h
      refine ih _ _ (Nat.or_lt_two_pow hq ?_) (fun _ => ?_)
      · rw [Nat.one_shiftLeft]; exact Nat.pow_lt_pow_right (by decide) (hr h)
      · have := hr h; omega
    · exact hq

/-- The division identity (43_long_division.md R142). -/
theorem toPoly_pdivrem (a : Nat) {b : Nat} (hb : b ≠ 0) :
    toPoly (pdivrem a b).1 * toPoly b + toPoly (pdivrem a b).2 = toPoly a := by
  simpa [pdivrem] using (pdivremLoop_spec hb (bitLen a) 0 a le_rfl (by simp)).1

theorem bitLen_pdivrem_snd_lt (a : Nat) {b : Nat} (hb : b ≠ 0) : bitLen (pdivrem a b).2 < bitLen b :=
  (pdivremLoop_spec hb (bitLen a) 0 a le_rfl (by simp)).2

/-- The quotient has no more bits than the dividend (43_long_division.md R143). -/
theorem pdivrem_fst_lt {a b n : Nat} (hb : b ≠ 0) (ha : a < 2 ^ n) : (pdivrem a b).1 < 2 ^ n := by
  refine pdivremLoop_fst_lt hb _ _ _ (Nat.two_pow_pos n) fun h => ?_
  have := bitLen_pos hb
  have := bitLen_le_iff.mpr ha
  omega

theorem pdivrem_snd_lt {a b n : Nat} (hb : b ≠ 0) (hbn : b < 2 ^ n) : (pdivrem a b).2 < 2 ^ n := by
  have := bitLen_pdivrem_snd_lt a hb
  have := bitLen_le_iff.mpr hbn
  exact bitLen_le_iff.mp (by omega)

/-- Quotient and remainder are unique (43_long_division.md R142). -/
theorem pdivrem_unique {b q r q' r' : Nat} (hr : bitLen r < bitLen b) (hr' : bitLen r' < bitLen b)
    (h : toPoly q * toPoly b + toPoly r = toPoly q' * toPoly b + toPoly r') : q = q' ∧ r = r' := by
  have hb : b ≠ 0 := by rintro rfl; simp at hr
  have hm := toPoly_monic hb
  have h1 : toPoly r = (toPoly q * toPoly b + toPoly r) %ₘ toPoly b := by
    rw [add_modByMonic, (modByMonic_eq_zero_iff_dvd hm).mpr (dvd_mul_left _ _), zero_add, eq_comm,
      modByMonic_eq_self_iff hm, toPoly_degree_lt_degree hb, deg_eq_bitLen, deg_eq_bitLen]
    omega
  have h2 : toPoly r' = (toPoly q' * toPoly b + toPoly r') %ₘ toPoly b := by
    rw [add_modByMonic, (modByMonic_eq_zero_iff_dvd hm).mpr (dvd_mul_left _ _), zero_add, eq_comm,
      modByMonic_eq_self_iff hm, toPoly_degree_lt_degree hb, deg_eq_bitLen, deg_eq_bitLen]
    omega
  have h3 : toPoly r = toPoly r' := by rw [h1, h2, h]
  refine ⟨toPoly_injective ?_, toPoly_injective h3⟩
  rw [h3] at h
  exact mul_right_cancel₀ (show toPoly b ≠ 0 by simpa using hb) (add_right_cancel h)

/-- Divisibility is a remainder of 0. -/
theorem polyDvd_iff_pdivrem {d x : Nat} (hd : d ≠ 0) : PolyDvd d x ↔ (pdivrem x d).2 = 0 := by
  have hid := toPoly_pdivrem x hd
  rw [polyDvd_iff]
  constructor
  · rintro ⟨f, hf⟩
    obtain ⟨q, rfl⟩ := toPoly_surjective f
    refine (pdivrem_unique (q := (pdivrem x d).1) (q' := q) (r' := 0) (bitLen_pdivrem_snd_lt x hd) ?_ ?_).2
    · simpa using bitLen_pos hd
    · rw [hid, hf, toPoly_zero, add_zero, mul_comm]
  · intro h
    rw [h, toPoly_zero, add_zero] at hid
    exact ⟨toPoly (pdivrem x d).1, by rw [← hid, mul_comm]⟩

/-- A polynomial is irreducible when trial division by every shorter one says so. -/
theorem irred_of_trial_division {p : Nat} (h1 : 1 ≤ deg p)
    (h : ∀ d < 2 ^ bitLen p, d ≠ 0 → (pdivrem p d).2 = 0 → d = 1 ∨ d = p) : Irred p := by
  have hp : p ≠ 0 := by rintro rfl; simp [deg] at h1
  refine ⟨h1, fun d hd => ?_⟩
  have hd0 : d ≠ 0 := by
    rintro rfl
    have := polyDvd_iff.mp hd
    rw [toPoly_zero, zero_dvd_iff, toPoly_eq_zero] at this
    exact hp this
  refine h d ?_ hd0 ((polyDvd_iff_pdivrem hd0).mp hd)
  have hle := degree_le_of_dvd (polyDvd_iff.mp hd) (by simpa using hp)
  rw [toPoly_degree hd0, toPoly_degree hp] at hle
  have hl : bitLen d - 1 ≤ bitLen p - 1 := by exact_mod_cast hle
  have := bitLen_pos hp
  exact bitLen_le_iff.mp (by omega)

end Sys2Proof.Machine
end

