-- ==== Sys2Proof/Laws/Multiplication.lean ====
section
/-! SUPPORT. The multiplier's loop computes the product modulo the modulus, within the width bounds of 42_multiply.md R132
and R133. -/

open Polynomial

namespace Sys2Proof.Machine

theorem ne_zero_of_deg {p m : Nat} (hm : deg p = m) : p ≠ 0 := by
  rintro rfl; simp [deg] at hm

theorem bitLen_of_deg {p m : Nat} (hm : deg p = m) : bitLen p = m + 1 := by
  rw [deg_eq_bitLen] at hm; omega

/-- A value below `2^m` is its own remainder modulo a polynomial of degree `m`. -/
theorem toPoly_modByMonic_of_lt {p m x : Nat} (hm : deg p = m) (hx : x < 2 ^ m) :
    toPoly x %ₘ toPoly p = toPoly x := by
  have := bitLen_le_iff.mpr hx
  have := bitLen_of_deg hm
  exact (toPoly_eq_modByMonic (ne_zero_of_deg hm) (by simp) (by omega)).symm

/-- The multiplier's shift keeps `a` below `2^m` (42_multiply.md R132). -/
theorem mulShift_lt {m p a : Nat} (hm : deg p = m) (ha : a < 2 ^ m) : mulShift m p a < 2 ^ m := by
  have h1 : a <<< 1 < 2 ^ (m + 1) := shiftLeft_lt ha
  have hl := bitLen_of_deg hm
  unfold mulShift
  split
  · rename_i h
    refine xor_lt_of_top h1 (bitLen_le_iff.mp hl.le) h ?_
    have := testBit_top (ne_zero_of_deg hm)
    rwa [hl] at this
  · rename_i h
    refine lt_two_pow_of_testBit_false fun i hi => ?_
    rcases Nat.eq_or_lt_of_le hi with rfl | hlt
    · simpa using h
    · exact testBit_false_of_lt h1 hlt

/-- The multiplier's shift multiplies by X modulo `p` (42_multiply.md R133). -/
theorem toPoly_mulShift {m p a : Nat} (hm : deg p = m) (ha : a < 2 ^ m) :
    toPoly (mulShift m p a) = (toPoly a * X) %ₘ toPoly p := by
  rw [← toPoly_modByMonic_of_lt hm (mulShift_lt hm ha)]
  refine modByMonic_eq_of_dvd_sub (toPoly_monic (ne_zero_of_deg hm)) ?_
  unfold mulShift
  split <;> simp

/-- After `i` iterations `a` is `a0 << i` reduced, and `acc` the reduced sum over the bits below `i` (42_multiply.md R132,
R133). -/
theorem gfMulIter_spec {m p a : Nat} (b : Nat) (hm : deg p = m) (ha : a < 2 ^ m) (i : Nat) :
    (gfMulIter m p a b i).1 < 2 ^ m ∧ (gfMulIter m p a b i).2 < 2 ^ m ∧
      toPoly (gfMulIter m p a b i).1 = toPoly (clmulBelow a b i) %ₘ toPoly p ∧
      toPoly (gfMulIter m p a b i).2 = toPoly (a <<< i) %ₘ toPoly p := by
  have hmon := toPoly_monic (ne_zero_of_deg hm)
  induction i with
  | zero => simpa [gfMulIter, clmulBelow, ha] using (toPoly_modByMonic_of_lt hm ha).symm
  | succ i ih =>
    obtain ⟨h1, h2, h3, h4⟩ := ih
    refine ⟨?_, mulShift_lt hm h2, ?_, ?_⟩
    · simp only [gfMulIter]
      split
      · exact xor_lt h1 h2
      · exact h1
    · simp only [gfMulIter, clmulBelow]
      split
      · rw [toPoly_xor, toPoly_xor, add_modByMonic, h3, h4]
      · simpa using h3
    · simp only [gfMulIter]
      rw [toPoly_mulShift hm h2]
      refine modByMonic_eq_of_dvd_sub hmon ?_
      have hd : toPoly p ∣ toPoly (a <<< i) - toPoly (a <<< i) %ₘ toPoly p :=
        ⟨toPoly (a <<< i) /ₘ toPoly p, by rw [sub_eq_iff_eq_add, add_comm, modByMonic_add_div]⟩
      rw [h4]
      have : toPoly (a <<< i) %ₘ toPoly p * X - toPoly (a <<< (i + 1))
          = -((toPoly (a <<< i) - toPoly (a <<< i) %ₘ toPoly p) * X) := by
        rw [toPoly_shiftLeft a (i + 1), toPoly_shiftLeft a i, pow_succ]; ring
      rw [this]
      exact (hd.mul_right _).neg_right

theorem clmulBelow_of_bitLen_le (a : Nat) {b n : Nat} (h : bitLen b ≤ n) : clmulBelow a b n = clmul a b := by
  induction n, h using Nat.le_induction with
  | base => rfl
  | succ n hn ih =>
    rw [clmulBelow, ih, testBit_false_of_lt (lt_two_pow_bitLen b) hn]
    simp

/-- `gf_mul` is the product modulo `p` (42_multiply.md R133). -/
theorem toPoly_gfMul {m p a b : Nat} (hm : deg p = m) (ha : a < 2 ^ m) (hb : b < 2 ^ m) :
    toPoly (gfMul m p a b) = (toPoly a * toPoly b) %ₘ toPoly p := by
  rw [gfMul, (gfMulIter_spec b hm ha m).2.2.1, clmulBelow_of_bitLen_le a (bitLen_le_iff.mpr hb), toPoly_clmul]

/-- The product is a field element (42_multiply.md R132). -/
theorem gfMul_lt {m p a : Nat} (b : Nat) (hm : deg p = m) (ha : a < 2 ^ m) : gfMul m p a b < 2 ^ m :=
  (gfMulIter_spec b hm ha m).1

end Sys2Proof.Machine
end

