-- ==== Sys2Proof/Laws/Inverse.lean ====
section
/-! SUPPORT. The inversion engine: its loop invariant (45_invert_divide.md R162), the bound on its iterations (R163), and
which operands it inverts (R164). -/

open Polynomial

namespace Sys2Proof.Machine

/-- The iterations the loop still needs: `deg(u) + deg(v) + 1` in general, two when `u = 0`, one when `v = 0`
(45_invert_divide.md R163). -/
def InvPairs.rank (t : InvPairs) : Nat :=
  if t.v = 0 then 1 else if t.u = 0 then 2 else bitLen t.u + bitLen t.v - 1

/-- What one iteration does to the pairs, after the swap that aligns the degrees. -/
theorem InvPairs.align_cases (t : InvPairs) :
    (bitLen t.v ≤ bitLen t.u ∧ t.align = t) ∨
      (bitLen t.u < bitLen t.v ∧ t.align = { u := t.v, v := t.u, g1 := t.g2, g2 := t.g1 }) := by
  unfold InvPairs.align
  split
  · rename_i h
    rw [deg_eq_bitLen, deg_eq_bitLen] at h
    exact Or.inr ⟨by omega, rfl⟩
  · rename_i h
    rw [deg_eq_bitLen, deg_eq_bitLen] at h
    exact Or.inl ⟨by omega, rfl⟩

theorem two_le_bitLen {x : Nat} (h0 : x ≠ 0) (h1 : x ≠ 1) : 2 ≤ bitLen x := by
  by_contra hc
  have : x < 2 ^ 1 := bitLen_le_iff.mp (by omega)
  omega

/-- An iteration that does not end the loop lowers the rank (45_invert_divide.md R163). -/
theorem InvPairs.rank_step_lt {t : InvPairs} (hu : t.u ≠ 1) (hv : t.v ≠ 0) (hv1 : t.v ≠ 1) :
    t.align.cancel.rank < t.rank := by
  have hvl := two_le_bitLen hv hv1
  rcases t.align_cases with ⟨hle, he⟩ | ⟨hlt, he⟩
  · have hu0 : t.u ≠ 0 := by intro e; rw [e] at hle; simp at hle; omega
    have hul := two_le_bitLen hu0 hu
    have hc := bitLen_cancel_lt hv hle
    rw [he]
    unfold InvPairs.rank InvPairs.cancel
    simp only [hv, hu0, if_false, deg_sub_toNat]
    split <;> omega
  · rw [he]
    by_cases hu0 : t.u = 0
    · simp [InvPairs.rank, InvPairs.cancel, hu0, hv]
    · have hul := two_le_bitLen hu0 hu
      have hc := bitLen_cancel_lt hu0 hlt.le
      unfold InvPairs.rank InvPairs.cancel
      simp only [hv, hu0, if_false, deg_sub_toNat]
      split <;> omega

/-- `v` is never 1 (45_invert_divide.md R160). -/
theorem InvPairs.step_v_ne_one {t : InvPairs} (hu : t.u ≠ 1) (hv1 : t.v ≠ 1) : t.align.cancel.v ≠ 1 := by
  rcases t.align_cases with ⟨_, he⟩ | ⟨_, he⟩ <;> rw [he]
  · exact hv1
  · exact hu

theorem InvPairs.rank_pos {t : InvPairs} (hv1 : t.v ≠ 1) : 0 < t.rank := by
  unfold InvPairs.rank
  split
  · decide
  · rename_i hv
    have := two_le_bitLen hv hv1
    split <;> omega

/-- Iterations beyond the rank change nothing (log 12). -/
theorem gfInvLoop_of_rank_le :
    ∀ (n : Nat) (t : InvPairs), t.v ≠ 1 → t.rank ≤ n → gfInvLoop n t = gfInvLoop t.rank t := by
  suffices h : ∀ (n k : Nat) (t : InvPairs), t.v ≠ 1 → t.rank ≤ n → t.rank ≤ k → gfInvLoop n t = gfInvLoop k t from
    fun n t h1 h2 => h n t.rank t h1 h2 le_rfl
  intro n
  induction n with
  | zero => intro k t hv hn; exact absurd (t.rank_pos hv) (by omega)
  | succ n ih =>
    intro k t hv hn hk
    obtain _ | k := k
    · exact absurd (t.rank_pos hv) (by omega)
    · rw [gfInvLoop, gfInvLoop]
      split
      · rfl
      · rename_i hu
        split
        · rfl
        · rename_i hv0
          have := t.rank_step_lt hu hv0 hv
          exact ih k _ (t.step_v_ne_one hu hv) (by omega) (by omega)

/-- The loop invariant: modulo `p`, `g1 * a` is `u` and `g2 * a` is `v` (45_invert_divide.md R162). -/
structure InvPairs.Tracks (p a : Nat) (t : InvPairs) : Prop where
  fst : toPoly p ∣ toPoly t.g1 * toPoly a - toPoly t.u
  snd : toPoly p ∣ toPoly t.g2 * toPoly a - toPoly t.v

theorem InvPairs.Tracks.start (p a : Nat) : InvPairs.Tracks p a { u := a, v := p, g1 := 1, g2 := 0 } :=
  ⟨by simp, by simp⟩

theorem InvPairs.Tracks.align {p a : Nat} {t : InvPairs} (h : t.Tracks p a) : t.align.Tracks p a := by
  rcases t.align_cases with ⟨_, he⟩ | ⟨_, he⟩ <;> rw [he]
  · exact h
  · exact ⟨h.snd, h.fst⟩

theorem InvPairs.Tracks.cancel {p a : Nat} {t : InvPairs} (h : t.Tracks p a) : t.cancel.Tracks p a := by
  refine ⟨?_, h.snd⟩
  have e : toPoly t.cancel.g1 * toPoly a - toPoly t.cancel.u
      = (toPoly t.g1 * toPoly a - toPoly t.u)
        + (toPoly t.g2 * toPoly a - toPoly t.v) * X ^ (deg t.u - deg t.v).toNat := by
    simp only [InvPairs.cancel, toPoly_xor, toPoly_shiftLeft]; ring
  rw [e]
  exact dvd_add h.fst (h.snd.mul_right _)

theorem InvPairs.isCoprime_step (t : InvPairs) :
    IsCoprime (toPoly t.align.cancel.u) (toPoly t.align.cancel.v) ↔ IsCoprime (toPoly t.u) (toPoly t.v) := by
  have hc : ∀ s : InvPairs, IsCoprime (toPoly s.cancel.u) (toPoly s.cancel.v) ↔ IsCoprime (toPoly s.u) (toPoly s.v) := by
    intro s
    simp only [InvPairs.cancel, toPoly_xor, toPoly_shiftLeft]
    exact IsCoprime.add_mul_left_left_iff
  rw [hc]
  rcases t.align_cases with ⟨_, he⟩ | ⟨_, he⟩ <;> rw [he]
  exact isCoprime_comm

/-- What the loop ends with: success exactly for coprime pairs, with a multiplier that takes `a` to 1 modulo `p`
(45_invert_divide.md R162, R164). -/
theorem gfInvLoop_spec {p a : Nat} :
    ∀ (n : Nat) (t : InvPairs), t.v ≠ 1 → t.rank ≤ n → t.Tracks p a →
      match gfInvLoop n t with
      | some g => IsCoprime (toPoly t.u) (toPoly t.v) ∧ toPoly p ∣ toPoly g * toPoly a - 1
      | none => ¬ IsCoprime (toPoly t.u) (toPoly t.v) := by
  intro n
  induction n with
  | zero => intro t hv hn; exact absurd (t.rank_pos hv) (by omega)
  | succ n ih =>
    intro t hv hn ht
    rw [gfInvLoop]
    by_cases hu : t.u = 1
    · have := ht.fst
      rw [hu, toPoly_one] at this
      simpa [hu] using ⟨isCoprime_one_left, this⟩
    · by_cases hv0 : t.v = 0
      · simp only [if_neg hu, hv0, if_true, toPoly_zero, isCoprime_zero_right, toPoly_isUnit]
        exact hu
      · have hr := t.rank_step_lt hu hv0 hv
        have := ih t.align.cancel (t.step_v_ne_one hu hv) (by omega) ht.align.cancel
        simp only [if_neg hu, if_neg hv0]
        revert this
        cases gfInvLoop n t.align.cancel <;> simp only [t.isCoprime_step] <;> exact id

/-- The iterations `gfInv` gives its loop are enough (45_invert_divide.md R163; log 12). -/
theorem InvPairs.start_rank_le (p a : Nat) (hp : p ≠ 0) (hp1 : p ≠ 1) :
    InvPairs.rank { u := a, v := p, g1 := 1, g2 := 0 } ≤ bitLen a + bitLen p := by
  have := two_le_bitLen hp hp1
  simp only [InvPairs.rank, if_neg hp]
  split <;> omega

theorem ne_one_of_deg {p m : Nat} (hm : deg p = m) (h1 : 1 ≤ m) : p ≠ 1 := by
  rintro rfl
  have : deg 1 = 0 := by decide
  omega

/-- INV succeeds: the result is a field element, and an inverse modulo `p`, of an operand coprime to `p`
(45_invert_divide.md R162 to R164). -/
theorem gfInv_some {p m a x : Nat} (hm : deg p = m) (h1 : 1 ≤ m) (h : gfInv p a = some x) :
    x < 2 ^ m ∧ IsCoprime (toPoly a) (toPoly p) ∧ toPoly p ∣ toPoly x * toPoly a - 1 := by
  have hp := ne_zero_of_deg hm
  have hp1 := ne_one_of_deg hm h1
  have hs := gfInvLoop_spec (bitLen a + bitLen p) _ hp1 (InvPairs.start_rank_le p a hp hp1) (InvPairs.Tracks.start p a)
  unfold gfInv at h
  split at h
  · rename_i g hg
    rw [hg] at hs
    obtain rfl := Option.some.inj h
    refine ⟨pmod_lt hm g, hs.1, ?_⟩
    have hd := (pmodLoop_spec hp (bitLen g) g le_rfl).1
    have e : toPoly (pmod p g) * toPoly a - 1
        = (toPoly g * toPoly a - 1) - (toPoly g - toPoly (pmod p g)) * toPoly a := by ring
    rw [e]
    exact dvd_sub hs.2 (hd.mul_right _)
  · exact absurd h (by simp)

/-- INV fails with `NO_INVERSE_EXISTS` only on an operand that is not coprime to `p` (45_invert_divide.md R164). -/
theorem gfInv_none {p m a : Nat} (hm : deg p = m) (h1 : 1 ≤ m) (h : gfInv p a = none) :
    ¬ IsCoprime (toPoly a) (toPoly p) := by
  have hp := ne_zero_of_deg hm
  have hp1 := ne_one_of_deg hm h1
  have hs := gfInvLoop_spec (bitLen a + bitLen p) _ hp1 (InvPairs.start_rank_le p a hp hp1) (InvPairs.Tracks.start p a)
  unfold gfInv at h
  split at h
  · exact absurd h (by simp)
  · rename_i hg
    rw [hg] at hs
    exact hs

end Sys2Proof.Machine
end

