-- ==== Sys2Proof/Laws/State.lean ====
section
/-! SUPPORT. One lemma per field per update of the state, so that no proof unfolds a record update. -/

namespace Sys2Proof.Machine

/-! ### State.accept -/

@[simp] theorem State.accept_cfg (s : State) (w : Word) : (s.accept w).cfg = s.cfg := rfl
@[simp] theorem State.accept_a (s : State) (w : Word) : (s.accept w).a = s.a := rfl
@[simp] theorem State.accept_b (s : State) (w : Word) : (s.accept w).b = s.b := rfl
@[simp] theorem State.accept_p (s : State) (w : Word) : (s.accept w).p = s.p := rfl
@[simp] theorem State.accept_m (s : State) (w : Word) : (s.accept w).m = s.m := rfl
@[simp] theorem State.accept_res (s : State) (w : Word) : (s.accept w).res = s.res := rfl
@[simp] theorem State.accept_rem (s : State) (w : Word) : (s.accept w).rem = s.rem := rfl
@[simp] theorem State.accept_status (s : State) (w : Word) : (s.accept w).status = Status.accepted := rfl
@[simp] theorem State.accept_inflight (s : State) (w : Word) : (s.accept w).inflight = some (s.snapshot w) := rfl
@[simp] theorem State.accept_env (s : State) (w : Word) : (s.accept w).env = s.env := rfl

/-! ### State.completeOk -/

@[simp] theorem State.completeOk_cfg (s : State) (r1 r2 : Nat) : (s.completeOk r1 r2).cfg = s.cfg := rfl
@[simp] theorem State.completeOk_a (s : State) (r1 r2 : Nat) : (s.completeOk r1 r2).a = s.a := rfl
@[simp] theorem State.completeOk_b (s : State) (r1 r2 : Nat) : (s.completeOk r1 r2).b = s.b := rfl
@[simp] theorem State.completeOk_p (s : State) (r1 r2 : Nat) : (s.completeOk r1 r2).p = s.p := rfl
@[simp] theorem State.completeOk_m (s : State) (r1 r2 : Nat) : (s.completeOk r1 r2).m = s.m := rfl
@[simp] theorem State.completeOk_res (s : State) (r1 r2 : Nat) : (s.completeOk r1 r2).res = zext (wr s.cfg) r1 := rfl
@[simp] theorem State.completeOk_rem (s : State) (r1 r2 : Nat) : (s.completeOk r1 r2).rem = zext (wr s.cfg) r2 := rfl
@[simp] theorem State.completeOk_status (s : State) (r1 r2 : Nat) : (s.completeOk r1 r2).status = Status.completed .none := rfl
@[simp] theorem State.completeOk_inflight (s : State) (r1 r2 : Nat) : (s.completeOk r1 r2).inflight = none := rfl
@[simp] theorem State.completeOk_env (s : State) (r1 r2 : Nat) : (s.completeOk r1 r2).env = s.env := rfl

/-! ### State.completeErr -/

@[simp] theorem State.completeErr_cfg (s : State) (e : ErrCode) : (s.completeErr e).cfg = s.cfg := rfl
@[simp] theorem State.completeErr_a (s : State) (e : ErrCode) : (s.completeErr e).a = s.a := rfl
@[simp] theorem State.completeErr_b (s : State) (e : ErrCode) : (s.completeErr e).b = s.b := rfl
@[simp] theorem State.completeErr_p (s : State) (e : ErrCode) : (s.completeErr e).p = s.p := rfl
@[simp] theorem State.completeErr_m (s : State) (e : ErrCode) : (s.completeErr e).m = s.m := rfl
@[simp] theorem State.completeErr_res (s : State) (e : ErrCode) : (s.completeErr e).res = s.res := rfl
@[simp] theorem State.completeErr_rem (s : State) (e : ErrCode) : (s.completeErr e).rem = s.rem := rfl
@[simp] theorem State.completeErr_status (s : State) (e : ErrCode) : (s.completeErr e).status = Status.completed e := rfl
@[simp] theorem State.completeErr_inflight (s : State) (e : ErrCode) : (s.completeErr e).inflight = none := rfl
@[simp] theorem State.completeErr_env (s : State) (e : ErrCode) : (s.completeErr e).env = s.env := rfl

/-! ### State.resetEvent -/

@[simp] theorem State.resetEvent_cfg (s : State) : s.resetEvent.cfg = s.cfg := rfl
@[simp] theorem State.resetEvent_a (s : State) : s.resetEvent.a = 0 := rfl
@[simp] theorem State.resetEvent_b (s : State) : s.resetEvent.b = 0 := rfl
@[simp] theorem State.resetEvent_p (s : State) : s.resetEvent.p = 0 := rfl
@[simp] theorem State.resetEvent_m (s : State) : s.resetEvent.m = 0 := rfl
@[simp] theorem State.resetEvent_res (s : State) : s.resetEvent.res = 0 := rfl
@[simp] theorem State.resetEvent_rem (s : State) : s.resetEvent.rem = 0 := rfl
@[simp] theorem State.resetEvent_status (s : State) : s.resetEvent.status = Status.reset := rfl
@[simp] theorem State.resetEvent_inflight (s : State) : s.resetEvent.inflight = none := rfl
@[simp] theorem State.resetEvent_env (s : State) : s.resetEvent.env = s.env := rfl

/-! ### State.answer -/

@[simp] theorem State.answer_cfg (s : State) (w : Word) : (s.answer w).cfg = s.cfg := rfl
@[simp] theorem State.answer_a (s : State) (w : Word) : (s.answer w).a = s.a := rfl
@[simp] theorem State.answer_b (s : State) (w : Word) : (s.answer w).b = s.b := rfl
@[simp] theorem State.answer_p (s : State) (w : Word) : (s.answer w).p = s.p := rfl
@[simp] theorem State.answer_m (s : State) (w : Word) : (s.answer w).m = s.m := rfl
@[simp] theorem State.answer_res (s : State) (w : Word) : (s.answer w).res = s.res := rfl
@[simp] theorem State.answer_rem (s : State) (w : Word) : (s.answer w).rem = s.rem := rfl
@[simp] theorem State.answer_status (s : State) (w : Word) : (s.answer w).status = s.status := rfl
@[simp] theorem State.answer_inflight (s : State) (w : Word) : (s.answer w).inflight = s.inflight := rfl
@[simp] theorem State.answer_env (s : State) (w : Word) : (s.answer w).env = { s.env with rdata := some w } := rfl

/-! ### State.goto -/

@[simp] theorem State.goto_cfg (s : State) (n : Nat) : (s.goto n).cfg = s.cfg := rfl
@[simp] theorem State.goto_a (s : State) (n : Nat) : (s.goto n).a = s.a := rfl
@[simp] theorem State.goto_b (s : State) (n : Nat) : (s.goto n).b = s.b := rfl
@[simp] theorem State.goto_p (s : State) (n : Nat) : (s.goto n).p = s.p := rfl
@[simp] theorem State.goto_m (s : State) (n : Nat) : (s.goto n).m = s.m := rfl
@[simp] theorem State.goto_res (s : State) (n : Nat) : (s.goto n).res = s.res := rfl
@[simp] theorem State.goto_rem (s : State) (n : Nat) : (s.goto n).rem = s.rem := rfl
@[simp] theorem State.goto_status (s : State) (n : Nat) : (s.goto n).status = s.status := rfl
@[simp] theorem State.goto_inflight (s : State) (n : Nat) : (s.goto n).inflight = s.inflight := rfl
@[simp] theorem State.goto_env (s : State) (n : Nat) : (s.goto n).env = { s.env with pc := n } := rfl

/-! ### State.nextLine -/

@[simp] theorem State.nextLine_cfg (s : State) : s.nextLine.cfg = s.cfg := rfl
@[simp] theorem State.nextLine_a (s : State) : s.nextLine.a = s.a := rfl
@[simp] theorem State.nextLine_b (s : State) : s.nextLine.b = s.b := rfl
@[simp] theorem State.nextLine_p (s : State) : s.nextLine.p = s.p := rfl
@[simp] theorem State.nextLine_m (s : State) : s.nextLine.m = s.m := rfl
@[simp] theorem State.nextLine_res (s : State) : s.nextLine.res = s.res := rfl
@[simp] theorem State.nextLine_rem (s : State) : s.nextLine.rem = s.rem := rfl
@[simp] theorem State.nextLine_status (s : State) : s.nextLine.status = s.status := rfl
@[simp] theorem State.nextLine_inflight (s : State) : s.nextLine.inflight = s.inflight := rfl
@[simp] theorem State.nextLine_env (s : State) : s.nextLine.env = { s.env with pc := s.env.pc + 1 } := rfl

/-! ### State.setTemp -/

@[simp] theorem State.setTemp_cfg (s : State) (t v : Nat) : (s.setTemp t v).cfg = s.cfg := rfl
@[simp] theorem State.setTemp_a (s : State) (t v : Nat) : (s.setTemp t v).a = s.a := rfl
@[simp] theorem State.setTemp_b (s : State) (t v : Nat) : (s.setTemp t v).b = s.b := rfl
@[simp] theorem State.setTemp_p (s : State) (t v : Nat) : (s.setTemp t v).p = s.p := rfl
@[simp] theorem State.setTemp_m (s : State) (t v : Nat) : (s.setTemp t v).m = s.m := rfl
@[simp] theorem State.setTemp_res (s : State) (t v : Nat) : (s.setTemp t v).res = s.res := rfl
@[simp] theorem State.setTemp_rem (s : State) (t v : Nat) : (s.setTemp t v).rem = s.rem := rfl
@[simp] theorem State.setTemp_status (s : State) (t v : Nat) : (s.setTemp t v).status = s.status := rfl
@[simp] theorem State.setTemp_inflight (s : State) (t v : Nat) : (s.setTemp t v).inflight = s.inflight := rfl
@[simp] theorem State.setTemp_env (s : State) (t v : Nat) : (s.setTemp t v).env = { s.env with temps := tempSet s.env.temps t v } := rfl

/-! ### State.takeTurn -/

@[simp] theorem State.takeTurn_cfg (s : State) : s.takeTurn.cfg = s.cfg := rfl
@[simp] theorem State.takeTurn_a (s : State) : s.takeTurn.a = s.a := rfl
@[simp] theorem State.takeTurn_b (s : State) : s.takeTurn.b = s.b := rfl
@[simp] theorem State.takeTurn_p (s : State) : s.takeTurn.p = s.p := rfl
@[simp] theorem State.takeTurn_m (s : State) : s.takeTurn.m = s.m := rfl
@[simp] theorem State.takeTurn_res (s : State) : s.takeTurn.res = s.res := rfl
@[simp] theorem State.takeTurn_rem (s : State) : s.takeTurn.rem = s.rem := rfl
@[simp] theorem State.takeTurn_status (s : State) : s.takeTurn.status = s.status := rfl
@[simp] theorem State.takeTurn_inflight (s : State) : s.takeTurn.inflight = s.inflight := rfl
@[simp] theorem State.takeTurn_env (s : State) : s.takeTurn.env = { s.env with schedule := s.env.schedule.tail } := rfl

/-! ### State.withProgram -/

@[simp] theorem State.withProgram_cfg (s : State) (l : List HostLine) : (s.withProgram l).cfg = s.cfg := rfl
@[simp] theorem State.withProgram_a (s : State) (l : List HostLine) : (s.withProgram l).a = s.a := rfl
@[simp] theorem State.withProgram_b (s : State) (l : List HostLine) : (s.withProgram l).b = s.b := rfl
@[simp] theorem State.withProgram_p (s : State) (l : List HostLine) : (s.withProgram l).p = s.p := rfl
@[simp] theorem State.withProgram_m (s : State) (l : List HostLine) : (s.withProgram l).m = s.m := rfl
@[simp] theorem State.withProgram_res (s : State) (l : List HostLine) : (s.withProgram l).res = s.res := rfl
@[simp] theorem State.withProgram_rem (s : State) (l : List HostLine) : (s.withProgram l).rem = s.rem := rfl
@[simp] theorem State.withProgram_status (s : State) (l : List HostLine) : (s.withProgram l).status = s.status := rfl
@[simp] theorem State.withProgram_inflight (s : State) (l : List HostLine) : (s.withProgram l).inflight = s.inflight := rfl
@[simp] theorem State.withProgram_env (s : State) (l : List HostLine) : (s.withProgram l).env = { s.env with prog := l, pc := 0 } := rfl

/-! ### State.placeCommand -/

@[simp] theorem State.placeCommand_cfg (s : State) (w : Word) : (s.placeCommand w).cfg = s.cfg := rfl
@[simp] theorem State.placeCommand_a (s : State) (w : Word) : (s.placeCommand w).a = s.a := rfl
@[simp] theorem State.placeCommand_b (s : State) (w : Word) : (s.placeCommand w).b = s.b := rfl
@[simp] theorem State.placeCommand_p (s : State) (w : Word) : (s.placeCommand w).p = s.p := rfl
@[simp] theorem State.placeCommand_m (s : State) (w : Word) : (s.placeCommand w).m = s.m := rfl
@[simp] theorem State.placeCommand_res (s : State) (w : Word) : (s.placeCommand w).res = s.res := rfl
@[simp] theorem State.placeCommand_rem (s : State) (w : Word) : (s.placeCommand w).rem = s.rem := rfl
@[simp] theorem State.placeCommand_status (s : State) (w : Word) : (s.placeCommand w).status = Status.accepted := rfl
@[simp] theorem State.placeCommand_inflight (s : State) (w : Word) : (s.placeCommand w).inflight = some (s.snapshot w) := rfl
@[simp] theorem State.placeCommand_env (s : State) (w : Word) : (s.placeCommand w).env = { s.env with schedule := .engine :: s.env.schedule } := rfl

/-! ### State.succeeded -/

@[simp] theorem State.succeeded_cfg (s : State) (r1 r2 : Nat) : (s.succeeded r1 r2).cfg = s.cfg := rfl
@[simp] theorem State.succeeded_a (s : State) (r1 r2 : Nat) : (s.succeeded r1 r2).a = s.a := rfl
@[simp] theorem State.succeeded_b (s : State) (r1 r2 : Nat) : (s.succeeded r1 r2).b = s.b := rfl
@[simp] theorem State.succeeded_p (s : State) (r1 r2 : Nat) : (s.succeeded r1 r2).p = s.p := rfl
@[simp] theorem State.succeeded_m (s : State) (r1 r2 : Nat) : (s.succeeded r1 r2).m = s.m := rfl
@[simp] theorem State.succeeded_res (s : State) (r1 r2 : Nat) : (s.succeeded r1 r2).res = r1 := rfl
@[simp] theorem State.succeeded_rem (s : State) (r1 r2 : Nat) : (s.succeeded r1 r2).rem = r2 := rfl
@[simp] theorem State.succeeded_status (s : State) (r1 r2 : Nat) : (s.succeeded r1 r2).status = { busy := false, done := true, err := .none } := rfl
@[simp] theorem State.succeeded_inflight (s : State) (r1 r2 : Nat) : (s.succeeded r1 r2).inflight = none := rfl
@[simp] theorem State.succeeded_env (s : State) (r1 r2 : Nat) : (s.succeeded r1 r2).env = s.env := rfl

/-! ### State.failed -/

@[simp] theorem State.failed_cfg (s : State) (e : ErrCode) : (s.failed e).cfg = s.cfg := rfl
@[simp] theorem State.failed_a (s : State) (e : ErrCode) : (s.failed e).a = s.a := rfl
@[simp] theorem State.failed_b (s : State) (e : ErrCode) : (s.failed e).b = s.b := rfl
@[simp] theorem State.failed_p (s : State) (e : ErrCode) : (s.failed e).p = s.p := rfl
@[simp] theorem State.failed_m (s : State) (e : ErrCode) : (s.failed e).m = s.m := rfl
@[simp] theorem State.failed_res (s : State) (e : ErrCode) : (s.failed e).res = s.res := rfl
@[simp] theorem State.failed_rem (s : State) (e : ErrCode) : (s.failed e).rem = s.rem := rfl
@[simp] theorem State.failed_status (s : State) (e : ErrCode) : (s.failed e).status = { busy := false, done := true, err := e } := rfl
@[simp] theorem State.failed_inflight (s : State) (e : ErrCode) : (s.failed e).inflight = none := rfl
@[simp] theorem State.failed_env (s : State) (e : ErrCode) : (s.failed e).env = s.env := rfl

/-! ### State.resetOf -/

@[simp] theorem State.resetOf_cfg (c : Config) : (State.resetOf c).cfg = c := rfl
@[simp] theorem State.resetOf_a (c : Config) : (State.resetOf c).a = 0 := rfl
@[simp] theorem State.resetOf_b (c : Config) : (State.resetOf c).b = 0 := rfl
@[simp] theorem State.resetOf_p (c : Config) : (State.resetOf c).p = 0 := rfl
@[simp] theorem State.resetOf_m (c : Config) : (State.resetOf c).m = 0 := rfl
@[simp] theorem State.resetOf_res (c : Config) : (State.resetOf c).res = 0 := rfl
@[simp] theorem State.resetOf_rem (c : Config) : (State.resetOf c).rem = 0 := rfl
@[simp] theorem State.resetOf_status (c : Config) : (State.resetOf c).status = Status.reset := rfl
@[simp] theorem State.resetOf_inflight (c : Config) : (State.resetOf c).inflight = none := rfl
@[simp] theorem State.resetOf_env (c : Config) : (State.resetOf c).env = Env.reset := rfl

/-! ### A host write of a word of a wide register -/

@[simp] theorem State.putWide_cfg (s : State) (r : WideReg) (k : Nat) (v : Word) : (s.putWide r k v).cfg = s.cfg := by
  cases r <;> rfl
@[simp] theorem State.putWide_a (s : State) (r : WideReg) (k : Nat) (v : Word) :
    (s.putWide r k v).a = if r = .a then putWord s.a k v else s.a := by cases r <;> rfl
@[simp] theorem State.putWide_b (s : State) (r : WideReg) (k : Nat) (v : Word) :
    (s.putWide r k v).b = if r = .b then putWord s.b k v else s.b := by cases r <;> rfl
@[simp] theorem State.putWide_p (s : State) (r : WideReg) (k : Nat) (v : Word) :
    (s.putWide r k v).p = if r = .p then putWord s.p k v else s.p := by cases r <;> rfl
@[simp] theorem State.putWide_m (s : State) (r : WideReg) (k : Nat) (v : Word) : (s.putWide r k v).m = s.m := by
  cases r <;> rfl
@[simp] theorem State.putWide_res (s : State) (r : WideReg) (k : Nat) (v : Word) : (s.putWide r k v).res = s.res := by
  cases r <;> rfl
@[simp] theorem State.putWide_rem (s : State) (r : WideReg) (k : Nat) (v : Word) : (s.putWide r k v).rem = s.rem := by
  cases r <;> rfl
@[simp] theorem State.putWide_status (s : State) (r : WideReg) (k : Nat) (v : Word) : (s.putWide r k v).status = s.status := by
  cases r <;> rfl
@[simp] theorem State.putWide_inflight (s : State) (r : WideReg) (k : Nat) (v : Word) : (s.putWide r k v).inflight = s.inflight := by
  cases r <;> rfl
@[simp] theorem State.putWide_env (s : State) (r : WideReg) (k : Nat) (v : Word) : (s.putWide r k v).env = s.env := by
  cases r <;> rfl

/-! ### The status register -/

@[simp] theorem Status.accepted_busy : Status.accepted.busy = true := rfl
@[simp] theorem Status.accepted_done : Status.accepted.done = false := rfl
@[simp] theorem Status.accepted_err : Status.accepted.err = .none := rfl
@[simp] theorem Status.completed_busy (e : ErrCode) : (Status.completed e).busy = false := rfl
@[simp] theorem Status.completed_done (e : ErrCode) : (Status.completed e).done = true := rfl
@[simp] theorem Status.completed_err (e : ErrCode) : (Status.completed e).err = e := rfl
@[simp] theorem Status.reset_busy : Status.reset.busy = false := rfl
@[simp] theorem Status.reset_done : Status.reset.done = false := rfl
@[simp] theorem Status.reset_err : Status.reset.err = .none := rfl

/-! ### State.carrying -/

@[simp] theorem State.carrying_cfg (s : State) (c : Snapshot) (x y : Nat) : (s.carrying c x y).cfg = s.cfg := rfl
@[simp] theorem State.carrying_inflight (s : State) (c : Snapshot) (x y : Nat) :
    (s.carrying c x y).inflight = some { c with a := x, b := y } := rfl
@[simp] theorem State.carrying_succeeded (s : State) (c : Snapshot) (x y r1 r2 : Nat) :
    (s.carrying c x y).succeeded r1 r2 = s.succeeded r1 r2 := rfl
@[simp] theorem State.carrying_failed (s : State) (c : Snapshot) (x y : Nat) (e : ErrCode) :
    (s.carrying c x y).failed e = s.failed e := rfl

/-! ### Completion -/

theorem State.completeErr_eq_failed (s : State) (e : ErrCode) : s.completeErr e = s.failed e := rfl

theorem State.completeOk_eq_succeeded {s : State} {r1 r2 : Nat} (h1 : Fits s.cfg r1) (h2 : Fits s.cfg r2) :
    s.completeOk r1 r2 = s.succeeded r1 r2 := by
  simp only [State.completeOk, State.succeeded, zext_eq_self h1, zext_eq_self h2, Status.completed]

end Sys2Proof.Machine
end

