-- ==== Sys2Proof/Laws/Commands.lean ====
section
/-! SUPPORT. What a command's step can do, said once: the shared engine step, and that every result fits its register. -/

namespace Sys2Proof.Machine

/-- The function of each command (40_command_cycle.md R103). -/
def commandOf : Instr → Config → Snapshot → CmdResult
  | .add => addCmd
  | .sub => subCmd
  | .mul => mulCmd
  | .divrem => divremCmd
  | .div => divCmd
  | .mod => modCmd
  | .inv => invCmd

theorem exec_eq_runCommand (i : Instr) (s : State) : exec i s = runCommand (commandOf i) s := by
  cases i <;> rfl

theorem runCommand_of_inflight {f : Config → Snapshot → CmdResult} {s : State} {c : Snapshot}
    (h : s.inflight = some c) : runCommand f s = .next (s.complete (f s.cfg c)) := by
  simp only [runCommand, h]

theorem exec_of_inflight {i : Instr} {s : State} {c : Snapshot} (h : s.inflight = some c) :
    exec i s = .next (s.complete (commandOf i s.cfg c)) := by
  rw [exec_eq_runCommand, runCommand_of_inflight h]

theorem exec_of_idle {i : Instr} {s : State} (h : s.inflight = none) : exec i s = .refused .engineNotEnabled := by
  rw [exec_eq_runCommand]; simp only [runCommand, h]

/-- All a command's step can do. -/
theorem exec_next {i : Instr} {s t : State} (h : exec i s = .next t) :
    ∃ c, s.inflight = some c ∧ t = s.complete (commandOf i s.cfg c) := by
  cases hi : s.inflight with
  | none => rw [exec_of_idle hi] at h; exact absurd h (by simp)
  | some c =>
    rw [exec_of_inflight hi] at h
    exact ⟨c, rfl, (Host.Outcome.next.inj h).symm⟩

/-- All a completion can do. -/
theorem State.complete_cases (s : State) (r : CmdResult) :
    (∃ r1 r2, r = .ok r1 r2 ∧ s.complete r = s.completeOk r1 r2) ∨ (∃ e, r = .err e ∧ s.complete r = s.completeErr e) := by
  cases r with
  | ok r1 r2 => exact Or.inl ⟨r1, r2, rfl, rfl⟩
  | err e => exact Or.inr ⟨e, rfl, rfl⟩

@[simp] theorem State.complete_inflight (s : State) (r : CmdResult) : (s.complete r).inflight = none := by
  cases r <;> rfl

@[simp] theorem State.complete_cfg (s : State) (r : CmdResult) : (s.complete r).cfg = s.cfg := by
  cases r <;> rfl

@[simp] theorem State.complete_a (s : State) (r : CmdResult) : (s.complete r).a = s.a := by
  cases r <;> rfl

@[simp] theorem State.complete_b (s : State) (r : CmdResult) : (s.complete r).b = s.b := by
  cases r <;> rfl

@[simp] theorem State.complete_p (s : State) (r : CmdResult) : (s.complete r).p = s.p := by
  cases r <;> rfl

@[simp] theorem State.complete_m (s : State) (r : CmdResult) : (s.complete r).m = s.m := by
  cases r <;> rfl

@[simp] theorem State.complete_env (s : State) (r : CmdResult) : (s.complete r).env = s.env := by
  cases r <;> rfl

@[simp] theorem State.complete_busy (s : State) (r : CmdResult) : (s.complete r).status.busy = false := by
  cases r <;> rfl

@[simp] theorem State.complete_done (s : State) (r : CmdResult) : (s.complete r).status.done = true := by
  cases r <;> rfl

/-- A command that ends with an error ends with a named one, never with the code of success (60_exceptions.md R200). -/
theorem commandOf_err_ne_none (i : Instr) (cfg : Config) (c : Snapshot) (e : ErrCode) (h : commandOf i cfg c = .err e) :
    e ≠ .none := by
  rintro rfl
  cases i <;> simp only [commandOf, addCmd, subCmd, mulCmd, divremCmd, divCmd, modCmd, invCmd] at h
  all_goals (repeat' split at h) <;> exact absurd h (by simp)

/-! ### Results fit their registers -/

/-- `2 * M_MAX` bits fit a wide register (00_scope.md R6). -/
theorem two_mMax_le_wr (cfg : Config) : 2 * cfg.mMax ≤ wr cfg := by
  unfold wr nw; omega

theorem fits_of_lt {cfg : Config} {m x : Nat} (hm : m ≤ cfg.mMax) (hx : x < 2 ^ m) : Fits cfg x :=
  lt_of_lt_of_le hx (Nat.pow_le_pow_right (by decide) (by have := two_mMax_le_wr cfg; omega))

theorem fits_zero (cfg : Config) : Fits cfg 0 := Nat.two_pow_pos _

theorem fieldOk_iff {cfg : Config} {m p : Nat} :
    fieldOk cfg m p = true ↔ 1 ≤ m ∧ m ≤ cfg.mMax ∧ deg p = m := by
  simp [fieldOk, and_assoc]

theorem inRange_iff {x m : Nat} : inRange x m = true ↔ x < 2 ^ m := by
  simp [inRange]

/-- The results of a command fit RES and REM (40_command_cycle.md R106). -/
def CmdResult.Fits (cfg : Config) : CmdResult → Prop
  | .ok r1 r2 => Machine.Fits cfg r1 ∧ Machine.Fits cfg r2
  | .err _ => True

theorem addCmd_fits {cfg : Config} {c : Snapshot} (h : c.Inv cfg) : (addCmd cfg c).Fits cfg :=
  ⟨xor_lt h.a_fits h.b_fits, fits_zero cfg⟩

theorem subCmd_fits {cfg : Config} {c : Snapshot} (h : c.Inv cfg) : (subCmd cfg c).Fits cfg :=
  ⟨xor_lt h.a_fits h.b_fits, fits_zero cfg⟩

theorem divremCmd_fits {cfg : Config} {c : Snapshot} (h : c.Inv cfg) : (divremCmd cfg c).Fits cfg := by
  unfold divremCmd
  split
  · trivial
  · rename_i hb
    exact ⟨pdivrem_fst_lt hb h.a_fits, pdivrem_snd_lt hb h.b_fits⟩

theorem mulCmd_fits (cfg : Config) (c : Snapshot) : (mulCmd cfg c).Fits cfg := by
  unfold mulCmd
  split
  · rename_i hf
    obtain ⟨h1, h2, h3⟩ := fieldOk_iff.mp hf
    split
    · rename_i ha
      split
      · exact ⟨fits_of_lt h2 (gfMul_lt c.b h3 (inRange_iff.mp ha)), fits_zero cfg⟩
      · trivial
    · trivial
  · trivial

theorem modCmd_fits (cfg : Config) (c : Snapshot) : (modCmd cfg c).Fits cfg := by
  unfold modCmd
  split
  · rename_i hf
    obtain ⟨h1, h2, h3⟩ := fieldOk_iff.mp hf
    exact ⟨fits_of_lt h2 (pmod_lt h3 c.a), fits_zero cfg⟩
  · trivial

theorem invCmd_fits (cfg : Config) (c : Snapshot) : (invCmd cfg c).Fits cfg := by
  unfold invCmd
  split
  · rename_i hf
    obtain ⟨h1, h2, h3⟩ := fieldOk_iff.mp hf
    split
    · split
      · trivial
      · split
        · rename_i x hx
          exact ⟨fits_of_lt h2 (gfInv_some h3 h1 hx).1, fits_zero cfg⟩
        · trivial
    · trivial
  · trivial

theorem divCmd_fits (cfg : Config) (c : Snapshot) : (divCmd cfg c).Fits cfg := by
  unfold divCmd
  split
  · rename_i hf
    obtain ⟨h1, h2, h3⟩ := fieldOk_iff.mp hf
    split
    · rename_i ha
      split
      · split
        · trivial
        · split
          · rename_i x hx
            unfold gfDiv at hx
            split at hx
            · obtain rfl := Option.some.inj hx
              exact ⟨fits_of_lt h2 (gfMul_lt _ h3 (inRange_iff.mp ha)), fits_zero cfg⟩
            · exact absurd hx (by simp)
          · trivial
      · trivial
    · trivial
  · trivial

/-- "Every command's `r1` and `r2` are below `2^WR`" (40_command_cycle.md R106). -/
theorem commandOf_fits {cfg : Config} {c : Snapshot} (h : c.Inv cfg) (i : Instr) : (commandOf i cfg c).Fits cfg := by
  cases i
  · exact addCmd_fits h
  · exact subCmd_fits h
  · exact mulCmd_fits cfg c
  · exact divremCmd_fits h
  · exact divCmd_fits cfg c
  · exact modCmd_fits cfg c
  · exact invCmd_fits cfg c

/-- A completion without truncation. -/
def State.completeExactly (s : State) : CmdResult → State
  | .ok r1 r2 => s.succeeded r1 r2
  | .err e => s.failed e

/-- What a completion leaves when its results fit. -/
theorem State.complete_of_fits {s : State} {r : CmdResult} (h : r.Fits s.cfg) : s.complete r = s.completeExactly r := by
  cases r with
  | ok r1 r2 => exact State.completeOk_eq_succeeded h.1 h.2
  | err e => rfl

/-- A command's step, given that its results fit. -/
theorem exec_of_fits {i : Instr} {s : State} {c : Snapshot} (h : s.inflight = some c)
    (hf : (commandOf i s.cfg c).Fits s.cfg) : exec i s = .next (s.completeExactly (commandOf i s.cfg c)) := by
  rw [exec_of_inflight h, State.complete_of_fits hf]

end Sys2Proof.Machine
end

