-- ==== Sys2Proof/Laws/Bus.lean ====
section
/-! SUPPORT. What a bus access can do: the register map, reads and writes of the window. -/

namespace Sys2Proof.Machine

theorem windowOffset_eq_some {cfg : Config} {addr off : Nat} :
    windowOffset cfg addr = some off ↔ addr = cfg.blockBase + off ∧ off < windowSize := by
  unfold windowOffset
  split
  · simp only [Option.some.injEq]; omega
  · simp only [reduceCtorEq, false_iff]; omega

@[simp] theorem windowOffset_base {cfg : Config} {off : Nat} (h : off < windowSize) :
    windowOffset cfg (cfg.blockBase + off) = some off := windowOffset_eq_some.mpr ⟨rfl, h⟩

theorem aligned32_iff {off width : Nat} : aligned32 off width = true ↔ width = 4 ∧ off % 4 = 0 := by
  simp [aligned32]

/-- An access that 20_memory.md R53 admits reads the word there and changes nothing of the block. -/
theorem busAccess_read {s : State} {off : Nat} (h : off < windowSize) (ha : off % 4 = 0) :
    busAccess (.read (s.cfg.blockBase + off) 4) s = .next (s.answer (readWord s off)) := by
  simp only [busAccess, windowOffset_base h, aligned32_iff.mpr ⟨rfl, ha⟩, if_true]

/-- An access that 20_memory.md R53 admits writes the word there. -/
theorem busAccess_write {s : State} {off : Nat} {v : Word} (h : off < windowSize) (ha : off % 4 = 0) :
    busAccess (.write (s.cfg.blockBase + off) 4 v) s = .next (writeWord s off v) := by
  simp only [busAccess, windowOffset_base h, aligned32_iff.mpr ⟨rfl, ha⟩, if_true]

@[simp] theorem busAccesses_nil (s : State) : busAccesses [] s = .next s := rfl

theorem busAccesses_cons {acc : BusAccess} {s t : State} (h : busAccess acc s = .next t) (l : List BusAccess) :
    busAccesses (acc :: l) s = busAccesses l t := by
  simp only [busAccesses, h]

/-- A list of accesses that completes goes on with the accesses after it. -/
theorem busAccesses_append {l : List BusAccess} {s t : State} (h : busAccesses l s = .next t) (l' : List BusAccess) :
    busAccesses (l ++ l') s = busAccesses l' t := by
  induction l generalizing s with
  | nil => cases h; rfl
  | cons acc l ih =>
    simp only [busAccesses] at h
    split at h
    · rename_i u hu
      rw [List.cons_append, busAccesses_cons hu, ih h]
    · cases h
    · cases h

/-- All a bus access that completes can do. -/
theorem busAccess_next {acc : BusAccess} {s t : State} (h : busAccess acc s = .next t) :
    (∃ off, acc = .read (s.cfg.blockBase + off) 4 ∧ off < windowSize ∧ off % 4 = 0 ∧ t = s.answer (readWord s off)) ∨
      (∃ off v, acc = .write (s.cfg.blockBase + off) 4 v ∧ off < windowSize ∧ off % 4 = 0 ∧ t = writeWord s off v) := by
  cases acc with
  | read addr width =>
    simp only [busAccess] at h
    split at h
    · exact absurd h (by simp)
    · rename_i off ho
      obtain ⟨rfl, hlt⟩ := windowOffset_eq_some.mp ho
      split at h
      · rename_i hal
        obtain ⟨rfl, ha⟩ := aligned32_iff.mp hal
        exact Or.inl ⟨off, rfl, hlt, ha, (Host.Outcome.next.inj h).symm⟩
      · exact absurd h (by simp)
  | write addr width v =>
    simp only [busAccess] at h
    split at h
    · exact absurd h (by simp)
    · rename_i off ho
      obtain ⟨rfl, hlt⟩ := windowOffset_eq_some.mp ho
      split at h
      · rename_i hal
        obtain ⟨rfl, ha⟩ := aligned32_iff.mp hal
        exact Or.inr ⟨off, v, rfl, hlt, ha, (Host.Outcome.next.inj h).symm⟩
      · exact absurd h (by simp)

/-- All a write to CMD can do (40_command_cycle.md R100, R101). -/
theorem State.issue_cases (s : State) (w : Word) :
    (s.inflight = none ∧ s.issue w = s.accept w) ∨ (∃ c, s.inflight = some c ∧ s.issue w = s) := by
  unfold State.issue
  cases h : s.inflight with
  | none => exact Or.inl ⟨rfl, rfl⟩
  | some c => exact Or.inr ⟨c, rfl, rfl⟩

/-- Only offset 4 is CMD (20_memory.md R51). -/
theorem region_eq_cmd {off : Nat} : region off = .cmd ↔ off = 4 := by
  constructor
  · intro h
    unfold region at h
    repeat' split at h
    all_goals first | assumption | exact absurd h (by simp)
  · rintro rfl; rfl

/-- Only offset 0 is STATUS (20_memory.md R51). -/
theorem region_eq_status {off : Nat} : region off = .status ↔ off = 0 := by
  constructor
  · intro h
    unfold region at h
    repeat' split at h
    all_goals first | assumption | exact absurd h (by simp)
  · rintro rfl; rfl

/-- The words of RES and REM stand in their spans (20_memory.md R51). -/
theorem region_result {off k : Nat} {r : WideReg} (h : region off = .word r k) (hr : r = .res ∨ r = .rem) :
    0x2000 ≤ off ∧ off < 0x3000 := by
  unfold region at h
  repeat' split at h
  all_goals cases h
  all_goals simp at hr
  all_goals omega

/-- All a write to the window can do: issue a command, store M, store a word of a wide register, or nothing. -/
theorem writeWord_cases (s : State) (off : Nat) (v : Word) :
    (region off = .cmd ∧ writeWord s off v = s.issue v) ∨
      (region off = .m ∧ writeWord s off v = { s with m := v.extractLsb' 0 16 }) ∨
      (∃ r k, region off = .word r k ∧ k < nw s.cfg ∧ writeWord s off v = s.putWide r k v) ∨
      writeWord s off v = s := by
  unfold writeWord
  cases h : region off with
  | cmd => exact Or.inl ⟨rfl, rfl⟩
  | m => exact Or.inr (Or.inl ⟨rfl, rfl⟩)
  | word r k =>
    by_cases hk : k < nw s.cfg
    · exact Or.inr (Or.inr (Or.inl ⟨r, k, rfl, hk, by simp [hk]⟩))
    · exact Or.inr (Or.inr (Or.inr (by simp [hk])))
  | status => exact Or.inr (Or.inr (Or.inr rfl))
  | param => exact Or.inr (Or.inr (Or.inr rfl))
  | reserved => exact Or.inr (Or.inr (Or.inr rfl))

/-- The wide registers of an implementation fit their spans (20_memory.md R52). -/
theorem nw_le {cfg : Config} (h : cfg.wf = true) : 1 ≤ nw cfg ∧ nw cfg ≤ 512 := by
  simp only [Config.wf, Bool.and_eq_true, decide_eq_true_eq] at h
  unfold nw; omega

/-- The span bases of 20_memory.md R52. -/
theorem span_values :
    span .a = 0x0800 ∧ span .b = 0x1000 ∧ span .p = 0x1800 ∧ span .res = 0x2000 ∧ span .rem = 0x2800 :=
  ⟨rfl, rfl, rfl, rfl, rfl⟩

/-- The register map at word `k` of a span (20_memory.md R51, R52). -/
theorem region_span (r : WideReg) {k : Nat} (h : k < 512) : region (span r + 4 * k) = .word r k := by
  obtain ⟨h1, h2, h3, h4, h5⟩ := span_values
  unfold region
  cases r
  all_goals
    generalize span .a = sa at *
    generalize span .b = sb at *
    generalize span .p = sp at *
    generalize span .res = sr at *
    generalize span .rem = sm at *
    repeat rw [if_neg (by omega)]
    rw [if_pos (by omega)]
    congr 1; omega

/-- Word `k < NW` of a wide register lies in the window, at a multiple of 4. -/
theorem span_word_in_window {cfg : Config} (hc : cfg.wf = true) (r : WideReg) {k : Nat} (hk : k < nw cfg) :
    span r + 4 * k < windowSize ∧ (span r + 4 * k) % 4 = 0 := by
  have hn := (nw_le hc).2
  have hws : windowSize = 0x3000 := rfl
  obtain ⟨h1, h2, h3, h4, h5⟩ := span_values
  cases r <;> omega

/-- A write of word `k < NW` of a wide register (20_memory.md R52). -/
theorem busAccess_write_word {s : State} (hc : s.cfg.wf = true) (r : WideReg) {k : Nat} (hk : k < nw s.cfg) (v : Word) :
    busAccess (.write (s.cfg.blockBase + (span r + 4 * k)) 4 v) s = .next (s.putWide r k v) := by
  obtain ⟨h, ha⟩ := span_word_in_window hc r hk
  have hn := (nw_le hc).2
  rw [busAccess_write h ha]
  simp only [writeWord, region_span r (show k < 512 by omega), if_pos hk]

/-- What word `k < NW` of a wide register reads as (20_memory.md R52). -/
theorem readWord_word {s : State} (hc : s.cfg.wf = true) (r : WideReg) {k : Nat} (hk : k < nw s.cfg) :
    readWord s (span r + 4 * k) = wordAt (s.wide r) k := by
  have hn := (nw_le hc).2
  simp only [readWord, region_span r (show k < 512 by omega), if_pos hk]

/-- A read of word `k < NW` of a wide register (20_memory.md R52). -/
theorem busAccess_read_word {s : State} (hc : s.cfg.wf = true) (r : WideReg) {k : Nat} (hk : k < nw s.cfg) :
    busAccess (.read (s.cfg.blockBase + (span r + 4 * k)) 4) s = .next (s.answer (wordAt (s.wide r) k)) := by
  obtain ⟨h, ha⟩ := span_word_in_window hc r hk
  rw [busAccess_read h ha, readWord_word hc r hk]

/-- An aligned offset is at most one thing in the map: word `k` of a wide register stands at one offset only. -/
theorem off_of_region_word {off : Nat} {r : WideReg} {k : Nat} (ha : off % 4 = 0) (h : region off = .word r k) :
    off = span r + 4 * k := by
  obtain ⟨h1, h2, h3, h4, h5⟩ := span_values
  unfold region at h
  generalize e1 : span .a = sa at h h1
  generalize e2 : span .b = sb at h h2
  generalize e3 : span .p = sp at h h3
  generalize e4 : span .res = sr at h h4
  generalize e5 : span .rem = sm at h h5
  repeat' split at h
  all_goals cases h
  all_goals omega

theorem State.wide_putWide_same (s : State) {r : WideReg} (k : Nat) (v : Word) (hr : r = .a ∨ r = .b ∨ r = .p) :
    (s.putWide r k v).wide r = putWord (s.wide r) k v := by
  rcases hr with rfl | rfl | rfl <;> rfl

theorem State.wide_putWide_other (s : State) {r q : WideReg} (k : Nat) (v : Word) (h : q ≠ r) :
    (s.putWide r k v).wide q = s.wide q := by
  cases r <;> cases q <;> first | rfl | exact absurd rfl h

end Sys2Proof.Machine
end

