-- ==== Sys2Proof/Laws/HostSide.lean ====
section
/-! SUPPORT. The host's temporaries and lines. -/

namespace Sys2Proof.Machine

theorem tempWfFrom_mono {lo lo' : Nat} (h : lo' ≤ lo) {l : List (Nat × Nat)} (hl : tempWfFrom lo l = true) :
    tempWfFrom lo' l = true := by
  cases l with
  | nil => rfl
  | cons x rest =>
    obtain ⟨k, v⟩ := x
    simp only [tempWfFrom, Bool.and_eq_true, decide_eq_true_eq] at hl ⊢
    exact ⟨⟨by omega, hl.1.2⟩, hl.2⟩

/-- Setting a temporary keeps the one form. -/
theorem tempSet_wfFrom {lo t : Nat} (v : Nat) (h : lo ≤ t) :
    ∀ {l : List (Nat × Nat)}, tempWfFrom lo l = true → tempWfFrom lo (tempSet l t v) = true := by
  intro l
  induction l generalizing lo with
  | nil => intro _; by_cases hv : v = 0 <;> simp [tempSet, tempWfFrom, hv, h]
  | cons x rest ih =>
    obtain ⟨k, y⟩ := x
    intro hl
    have hl' := hl
    simp only [tempWfFrom, Bool.and_eq_true, decide_eq_true_eq] at hl
    unfold tempSet
    split
    · rename_i htk
      split
      · exact hl'
      · rename_i hv
        simp only [tempWfFrom, Bool.and_eq_true, decide_eq_true_eq]
        exact ⟨⟨h, hv⟩, ⟨⟨by omega, hl.1.2⟩, hl.2⟩⟩
    · split
      · rename_i htk
        split
        · exact tempWfFrom_mono (by omega) hl.2
        · rename_i hv
          simp only [tempWfFrom, Bool.and_eq_true, decide_eq_true_eq]
          subst htk
          exact ⟨⟨h, hv⟩, hl.2⟩
      · rename_i h1 h2
        simp only [tempWfFrom, Bool.and_eq_true, decide_eq_true_eq]
        exact ⟨hl.1, ih (by omega) hl.2⟩

theorem tempSet_wf {l : List (Nat × Nat)} (t v : Nat) (h : tempWf l = true) : tempWf (tempSet l t v) = true :=
  tempSet_wfFrom v (Nat.zero_le t) h

theorem tempGet_of_lt {lo t : Nat} (h : t < lo) : ∀ {l : List (Nat × Nat)}, tempWfFrom lo l = true → tempGet l t = 0 := by
  intro l
  induction l generalizing lo with
  | nil => intro _; rfl
  | cons x rest ih =>
    obtain ⟨k, y⟩ := x
    intro hl
    simp only [tempWfFrom, Bool.and_eq_true, decide_eq_true_eq] at hl
    rw [tempGet, if_neg (by omega)]
    exact ih (by omega) hl.2

theorem tempGet_tempSet_from {lo t q v : Nat} :
    ∀ {l : List (Nat × Nat)}, tempWfFrom lo l = true → tempGet (tempSet l t v) q = if q = t then v else tempGet l q := by
  intro l
  induction l generalizing lo with
  | nil =>
    intro _
    by_cases hv : v = 0
    · simp [tempSet, tempGet, hv]
    · simp [tempSet, tempGet, hv, eq_comm]
  | cons x rest ih =>
    obtain ⟨k, y⟩ := x
    intro hl
    simp only [tempWfFrom, Bool.and_eq_true, decide_eq_true_eq] at hl
    unfold tempSet
    split
    · rename_i htk
      split
      · rename_i hv
        by_cases hq : q = t
        · subst hq
          rw [if_pos rfl, hv, tempGet, if_neg (by omega), tempGet_of_lt (by omega) hl.2]
        · rw [if_neg hq]
      · by_cases hq : q = t
        · subst hq; simp [tempGet]
        · rw [tempGet, if_neg (Ne.symm hq), if_neg hq]
    · split
      · rename_i htk
        subst htk
        split
        · rename_i hv
          by_cases hq : q = t
          · subst hq
            rw [if_pos rfl, hv, tempGet_of_lt (by omega) hl.2]
          · rw [if_neg hq, tempGet, if_neg (Ne.symm hq)]
        · by_cases hq : q = t
          · subst hq; simp [tempGet]
          · rw [tempGet, if_neg (Ne.symm hq), if_neg hq, tempGet, if_neg (Ne.symm hq)]
      · rename_i h1 h2
        by_cases hq : q = k
        · subst hq
          rw [tempGet, if_pos rfl, tempGet, if_pos rfl, if_neg (Ne.symm h2)]
        · rw [tempGet, if_neg (Ne.symm hq), ih hl.2, tempGet, if_neg (Ne.symm hq)]

/-- A temporary reads as it was last set, and setting one leaves every other alone. -/
theorem tempGet_tempSet {l : List (Nat × Nat)} (t q v : Nat) (h : tempWf l = true) :
    tempGet (tempSet l t v) q = if q = t then v else tempGet l q := tempGet_tempSet_from h

/-- All a host line that completes can do to the block: what one bus access of its own does, or nothing. The host side
moves on. -/
theorem runLine_next {line : HostLine} {s t : State} (h : runLine line s = .next t) :
    ∃ u, ((∃ acc, busAccess acc s = .next u) ∨ u = s) ∧ ∃ pc temps,
      t = { u with env := { u.env with pc := pc, temps := temps } } ∧
        (tempWf u.env.temps = true → tempWf temps = true) := by
  have hself : ∀ u : State, ∃ pc temps, u = { u with env := { u.env with pc := pc, temps := temps } } ∧
      (tempWf u.env.temps = true → tempWf temps = true) := fun u => ⟨u.env.pc, u.env.temps, rfl, id⟩
  cases line with
  | st off v k =>
    simp only [runLine] at h
    split at h
    · rename_i u hu
      obtain rfl := Host.Outcome.next.inj h
      exact ⟨u, Or.inl ⟨_, hu⟩, u.env.pc + 1, u.env.temps, rfl, id⟩
    · exact absurd h (by simp)
    · exact absurd h (by simp)
  | ld off n k =>
    simp only [runLine] at h
    split at h
    · rename_i u hu
      obtain rfl := Host.Outcome.next.inj h
      exact ⟨u, Or.inl ⟨_, hu⟩, u.env.pc + 1, tempSet u.env.temps n _, rfl, tempSet_wf _ _⟩
    · exact absurd h (by simp)
    · exact absurd h (by simp)
  | assign n e =>
    obtain rfl := Host.Outcome.next.inj h
    exact ⟨s, Or.inr rfl, s.env.pc + 1, tempSet s.env.temps n _, rfl, tempSet_wf _ _⟩
  | bnz n mask l =>
    obtain rfl := Host.Outcome.next.inj h
    refine ⟨s, Or.inr rfl, ?_⟩
    split <;> exact ⟨_, s.env.temps, rfl, id⟩
  | beq n v l =>
    obtain rfl := Host.Outcome.next.inj h
    refine ⟨s, Or.inr rfl, ?_⟩
    split <;> exact ⟨_, s.env.temps, rfl, id⟩
  | bne n v l =>
    obtain rfl := Host.Outcome.next.inj h
    refine ⟨s, Or.inr rfl, ?_⟩
    split <;> exact ⟨_, s.env.temps, rfl, id⟩
  | halt =>
    obtain rfl := Host.Outcome.next.inj h
    exact ⟨s, Or.inr rfl, hself s⟩

/-- All a host step that completes can do. -/
theorem hostStep_next {s t : State} (h : hostStep s = .next t) :
    ∃ u, ((∃ acc, busAccess acc s = .next u) ∨ u = s) ∧ ∃ pc temps,
      t = { u with env := { u.env with pc := pc, temps := temps } } ∧
        (tempWf u.env.temps = true → tempWf temps = true) := by
  unfold hostStep at h
  split at h
  · obtain rfl := Host.Outcome.next.inj h
    exact ⟨s, Or.inr rfl, s.env.pc, s.env.temps, rfl, id⟩
  · exact runLine_next h

end Sys2Proof.Machine
end

