-- ==== Sys2Proof/Laws/PerInstr.lean ====
section
/-! SUPPORT. Statements about every command as syntax, one lemma per constructor. -/

namespace Sys2Proof.Laws.WordForm

/-- The word of a command has the one format of 30_encoding.md R70: `Z` is 0, `OP` is the command's number, and the word
is a well-formed command word. -/
def Statement (i : Instr) : Prop :=
  zField (encode i) = 0 ∧ opField (encode i) = opcode i ∧ CommandWord.wf (encode i) = true

theorem add : Statement .add := by unfold Statement; decide
theorem sub : Statement .sub := by unfold Statement; decide
theorem mul : Statement .mul := by unfold Statement; decide
theorem divrem : Statement .divrem := by unfold Statement; decide
theorem div : Statement .div := by unfold Statement; decide
theorem mod : Statement .mod := by unfold Statement; decide
theorem inv : Statement .inv := by unfold Statement; decide

end Sys2Proof.Laws.WordForm
end

