-- ==== Sys2Proof/Laws/Step.lean ====
section
/-! SUPPORT. What one step can do, said once. -/

namespace Sys2Proof.Machine

/-- A command in flight whose word is the word of `i` runs as `exec i`. -/
theorem engineStep_of_encode {i : Instr} {s : State} {c : Snapshot} (h : s.inflight = some c) (hw : c.w = encode i) :
    engineStep s = exec i s := by
  have hd : decode (encode i) = .instr i := by cases i <;> decide
  simp only [engineStep, h, hw, hd]

/-- All the engine's step can do; it always completes the command in flight (40_command_cycle.md R102). -/
theorem engineStep_cases (s : State) :
    (s.inflight = none ∧ engineStep s = .next s) ∨
      (∃ c i, s.inflight = some c ∧ decode c.w = .instr i ∧
        engineStep s = .next (s.complete (commandOf i s.cfg c))) ∨
      (∃ c r, s.inflight = some c ∧ decode c.w = .reject r ∧
        engineStep s = .next (s.complete (.err .illegalCommand))) := by
  unfold engineStep
  cases h : s.inflight with
  | none => exact Or.inl ⟨rfl, rfl⟩
  | some c =>
    cases hd : decode c.w with
    | instr i => exact Or.inr (Or.inl ⟨c, i, rfl, hd, by simp only [hd, exec_of_inflight h]⟩)
    | reject r => exact Or.inr (Or.inr ⟨c, r, rfl, hd, by simp only [hd]; rfl⟩)

/-- All a step that completes can do: nothing to the block, the completion of the command in flight, one bus access, or
the reset event; beside it only the host side moves. -/
theorem step_next {s t : State} (h : step s = .next t) :
    (nextTurn s = .engine ∧ s.inflight = none ∧ t = s.takeTurn) ∨
      (nextTurn s = .engine ∧ ∃ c r, s.inflight = some c ∧ t = s.takeTurn.complete r ∧
        (r = .err .illegalCommand ∨ ∃ i, r = commandOf i s.cfg c)) ∨
      ((nextTurn s = .host ∨ ∃ acc, nextTurn s = .access acc) ∧
        ∃ u, ((∃ acc, busAccess acc s.takeTurn = .next u) ∨ u = s.takeTurn) ∧ ∃ pc temps,
          t = { u with env := { u.env with pc := pc, temps := temps } } ∧
            (tempWf u.env.temps = true → tempWf temps = true)) ∨
      (nextTurn s = .reset ∧ t = s.takeTurn.resetEvent) := by
  unfold step at h
  cases hn : nextTurn s with
  | engine =>
    rw [hn] at h
    simp only [runTurn] at h
    rcases engineStep_cases s.takeTurn with ⟨h1, h2⟩ | ⟨c, i, h1, _, h2⟩ | ⟨c, r, h1, _, h2⟩
    · rw [h2] at h
      exact Or.inl ⟨rfl, h1, (Host.Outcome.next.inj h).symm⟩
    · rw [h2] at h
      exact Or.inr (Or.inl ⟨rfl, c, _, h1, (Host.Outcome.next.inj h).symm, Or.inr ⟨i, rfl⟩⟩)
    · rw [h2] at h
      exact Or.inr (Or.inl ⟨rfl, c, _, h1, (Host.Outcome.next.inj h).symm, Or.inl rfl⟩)
  | host =>
    rw [hn] at h
    exact Or.inr (Or.inr (Or.inl ⟨Or.inl rfl, hostStep_next h⟩))
  | access acc =>
    rw [hn] at h
    exact Or.inr (Or.inr (Or.inl ⟨Or.inr ⟨acc, rfl⟩, t, Or.inl ⟨acc, h⟩, t.env.pc, t.env.temps, rfl, id⟩))
  | reset =>
    rw [hn] at h
    exact Or.inr (Or.inr (Or.inr ⟨rfl, (Host.Outcome.next.inj h).symm⟩))

/-! ### Each operation keeps the invariant -/

theorem State.Inv.of_env {s : State} (h : s.Inv) (env : Env) (ht : tempWf env.temps = true) :
    State.Inv { s with env := env } :=
  { h with temps_wf := ht }

theorem State.Inv.takeTurn {s : State} (h : s.Inv) : s.takeTurn.Inv := h.of_env _ h.temps_wf

theorem State.Inv.answer {s : State} (h : s.Inv) (w : Word) : (s.answer w).Inv := h.of_env _ h.temps_wf

theorem State.Inv.resetEvent {s : State} (h : s.Inv) : s.resetEvent.Inv where
  cfg_wf := h.cfg_wf
  a_fits := fits_zero _
  b_fits := fits_zero _
  p_fits := fits_zero _
  res_fits := fits_zero _
  rem_fits := fits_zero _
  busy_iff := rfl
  not_busy_done := by simp
  err_done := fun _ => rfl
  snapshot_fits := by simp
  temps_wf := h.temps_wf

theorem State.Inv.accept {s : State} (h : s.Inv) (w : Word) : (s.accept w).Inv where
  cfg_wf := h.cfg_wf
  a_fits := h.a_fits
  b_fits := h.b_fits
  p_fits := h.p_fits
  res_fits := h.res_fits
  rem_fits := h.rem_fits
  busy_iff := rfl
  not_busy_done := by simp
  err_done := fun _ => rfl
  snapshot_fits := by
    intro c hc
    obtain rfl := Option.some.inj hc
    exact ⟨h.a_fits, h.b_fits, h.p_fits⟩
  temps_wf := h.temps_wf

theorem State.Inv.complete {s : State} (h : s.Inv) (r : CmdResult) : (s.complete r).Inv where
  cfg_wf := by simpa using h.cfg_wf
  a_fits := by simpa using h.a_fits
  b_fits := by simpa using h.b_fits
  p_fits := by simpa using h.p_fits
  res_fits := by
    cases r with
    | ok r1 r2 => exact zext_lt _ _
    | err e => exact h.res_fits
  rem_fits := by
    cases r with
    | ok r1 r2 => exact zext_lt _ _
    | err e => exact h.rem_fits
  busy_iff := by simp
  not_busy_done := by simp
  err_done := by simp
  snapshot_fits := by simp
  temps_wf := by simpa using h.temps_wf

theorem State.Inv.issue {s : State} (h : s.Inv) (w : Word) : (s.issue w).Inv := by
  rcases s.issue_cases w with ⟨_, he⟩ | ⟨c, _, he⟩ <;> rw [he]
  · exact h.accept w
  · exact h

theorem State.Inv.putWide {s : State} (h : s.Inv) (r : WideReg) {k : Nat} (hk : k < nw s.cfg) (v : Word) :
    (s.putWide r k v).Inv := by
  cases r
  · exact { h with a_fits := putWord_lt v h.a_fits hk }
  · exact { h with b_fits := putWord_lt v h.b_fits hk }
  · exact { h with p_fits := putWord_lt v h.p_fits hk }
  · exact h
  · exact h

theorem State.Inv.writeWord {s : State} (h : s.Inv) (off : Nat) (v : Word) : (writeWord s off v).Inv := by
  rcases writeWord_cases s off v with ⟨_, he⟩ | ⟨_, he⟩ | ⟨r, k, _, hk, he⟩ | he <;> rw [he]
  · exact h.issue v
  · exact { h with }
  · exact h.putWide r hk v
  · exact h

theorem State.Inv.busAccess {s t : State} (h : s.Inv) {acc : BusAccess} (hb : Machine.busAccess acc s = .next t) :
    t.Inv := by
  rcases busAccess_next hb with ⟨off, _, _, _, rfl⟩ | ⟨off, v, _, _, _, rfl⟩
  · exact h.answer _
  · exact h.writeWord off v

end Sys2Proof.Machine
end

