-- ==== Sys2Proof/Tests/Slice0.lean ====
section
/-! SUPPORT. Tests. Expected values are the spec's: the words of 30_encoding.md R70 to R72, and the vectors of
95_test_vectors.md, named in each docstring. Then, for every statement with hypotheses, a state and operands that meet them
(`witness_<statement>`), at the ends of each clause's range. -/

namespace Sys2Proof.Tests

open Sys2Proof.Machine

/-! ### Helpers -/

/-- The next state of an outcome, if it is one. -/
def after (o : Host.Outcome State Fault Refusal) : Option State :=
  match o with
  | .next t => some t
  | .fault _ => none
  | .refused _ => none

/-- The fault of an outcome, if it is one. -/
def faultOf (o : Host.Outcome State Fault Refusal) : Option Fault :=
  match o with
  | .next _ => none
  | .fault r => some r
  | .refused _ => none

/-- The refusal of an outcome, if it is one. -/
def refusalOf (o : Host.Outcome State Fault Refusal) : Option Refusal :=
  match o with
  | .next _ => none
  | .fault _ => none
  | .refused r => some r

/-- A snapshot. -/
def snap (w : Word) (a b : Nat) (m : BitVec 16) (p : Nat) : Snapshot := { w := w, a := a, b := b, m := m, p := p }

/-- A block of the test configuration with this snapshot in flight and nothing else in its registers but 7 in RES and 9 in
REM. -/
def inFlight (c : Snapshot) : State :=
  { State.reset with res := 7, rem := 9, status := Status.accepted, inflight := some c }

/-- A block with two words in each wide register, at a base that is not 0. -/
def twoWords : Config := { mMax := 32, blockBase := 0x4000, registryRest := [] }

/-- RES, REM and STATUS after the engine's step on the command word `w` with this snapshot. -/
def completion (w : Word) (a b : Nat) (m : BitVec 16) (p : Nat) : Option (Nat × Nat × Nat) :=
  (after (engineStep (inFlight (snap w a b m p)))).map fun t => (t.res, t.rem, t.status.word.toNat)

/-! ### Well-formedness: an ill-formed term for each check -/

theorem test_word_high_bits_ill_formed : CommandWord.wf 0x00000101 = false := by decide
theorem test_word_zero_ill_formed : CommandWord.wf 0x00000000 = false := by decide
theorem test_word_eight_ill_formed : CommandWord.wf 0x00000008 = false := by decide
theorem test_word_one_and_seven_well_formed : CommandWord.wf 1 = true ∧ CommandWord.wf 7 = true := by decide
theorem test_config_degree_zero_ill_formed : Config.wf { mMax := 0, blockBase := 0, registryRest := [] } = false := by decide
theorem test_config_degree_8193_ill_formed :
    Config.wf { mMax := 8193, blockBase := 0, registryRest := [] } = false := by decide
theorem test_config_bounds_well_formed :
    Config.wf { mMax := 1, blockBase := 0, registryRest := [] } = true ∧
    Config.wf { mMax := 8192, blockBase := 4096, registryRest := [] } = true := by decide
theorem test_access_one_byte_ill_formed : BusAccess.wf Config.reference (.read 0x0000 1) = false := by decide
theorem test_access_unaligned_ill_formed : BusAccess.wf Config.reference (.write 0x0002 4 0) = false := by decide
theorem test_access_past_window_ill_formed : BusAccess.wf Config.reference (.read 0x3000 4) = false := by decide
theorem test_access_below_window_ill_formed :
    BusAccess.wf { mMax := 16, blockBase := 0x4000, registryRest := [] } (.read 0x3FFC 4) = false := by decide
theorem test_access_last_word_well_formed : BusAccess.wf Config.reference (.read 0x2FFC 4) = true := by decide
theorem test_constant_33_bits_ill_formed : HostVal.wf32 (.const 0x100000000) = false := by decide
theorem test_line_wr_res_ill_formed : HostSrc.wf (.wr .res (.const 1)) = false := by decide
theorem test_line_st_unaligned_ill_formed : HostSrc.wf (.st 0x0801 (.const 1)) = false := by decide
theorem test_line_ld_past_window_ill_formed : HostSrc.wf (.ld 0x3000 0) = false := by decide
theorem test_line_branch_wide_ill_formed :
    HostSrc.wf (.beq 0 (.const 0x100000000) 1) = false ∧ HostSrc.wf (.bne 0 (.const 0x100000000) 1) = false := by decide
theorem test_line_setm_wide_ill_formed : HostSrc.wf (.setm (.const 0x100000000)) = false := by decide

/-! ### Decoding words written out from 30_encoding.md R70 and R71 -/

theorem test_decode_add : decode 0b0000000000000000000000000000_0001#32 = .instr .add := by decide
theorem test_decode_sub : decode 0b0000000000000000000000000000_0010#32 = .instr .sub := by decide
theorem test_decode_mul : decode 0b0000000000000000000000000000_0011#32 = .instr .mul := by decide
theorem test_decode_divrem : decode 0b0000000000000000000000000000_0100#32 = .instr .divrem := by decide
theorem test_decode_div : decode 0b0000000000000000000000000000_0101#32 = .instr .div := by decide
theorem test_decode_mod : decode 0b0000000000000000000000000000_0110#32 = .instr .mod := by decide
theorem test_decode_inv : decode 0b0000000000000000000000000000_0111#32 = .instr .inv := by decide
/-- V-ILL-1 to V-ILL-6. -/
theorem test_decode_illegal :
    decode 0x00000000 = .reject .zeroWord ∧ decode 0x00000008 = .reject .unnamedOp ∧
    decode 0x0000000F = .reject .unnamedOp ∧ decode 0x00000101 = .reject .highBitsSet ∧
    decode 0x10000003 = .reject .highBitsSet ∧ decode 0xFFFFFFFF = .reject .highBitsSet := by decide
/-- 20_memory.md R57: lane 0 holds bits 7:0. -/
theorem test_decode_bytes_lane_zero_lowest :
    decodeBytes [0x03, 0x00, 0x00, 0x00] = .instr .mul ∧ decodeBytes [0x00, 0x00, 0x00, 0x03] = .reject .highBitsSet := by
  decide
theorem test_decode_bytes_wrong_length : decodeBytes [0x03] = .reject .wrongLength := by decide
theorem test_decode_table_word : decodeTableWord 32 5 = some .div ∧ decodeTableWord 32 0x101 = none := by decide

/-! ### Commands: vectors of 95_test_vectors.md -/

/-- V-ADD-6. -/
theorem test_add_wide : completion 1 0x12345678 0x0F0F0F0F 8 0x11B = some (0x1D3B5977, 0, 0x2) := by decide
/-- V-ADD-8. -/
theorem test_add_without_field : completion 1 0x1A 0x2B 0 0 = some (0x31, 0, 0x2) := by decide
/-- V-ADD-2. -/
theorem test_sub : completion 2 0x1A 0x2B 8 0x11B = some (0x31, 0, 0x2) := by decide
/-- V-ADD-3, for SUB. -/
theorem test_sub_self : completion 2 0xFFFFFFFF 0xFFFFFFFF 8 0x11B = some (0, 0, 0x2) := by decide
/-- V-MUL-15. -/
theorem test_mul_full_degree : completion 3 0xFFFF 0xFFFF 16 0x1002B = some (0xABFA, 0, 0x2) := by decide
/-- V-MUL-21 and V-MUL-19: the field check comes first; RES and REM stay. -/
theorem test_mul_checks :
    completion 3 0x100 0x1A 0 0 = some (7, 9, 0x42) ∧ completion 3 0x1A 0x100 8 0x11B = some (7, 9, 0x52) := by decide
/-- V-DR-5. -/
theorem test_divrem : completion 4 0xDEADBEEF 0x11B 0 0 = some (0xD43345, 0x58, 0x2) := by decide
/-- V-DR-11. -/
theorem test_divrem_by_zero : completion 4 0 0 8 0x11B = some (7, 9, 0x12) := by decide
/-- V-DV-1. -/
theorem test_div : completion 5 0x1A 0x2B 8 0x11B = some (0xC9, 0, 0x2) := by decide
/-- V-DV-7, V-DV-9 and V-DV-10. -/
theorem test_div_checks :
    completion 5 0x1A 0 8 0x11B = some (7, 9, 0x12) ∧ completion 5 0x100 0 8 0x11B = some (7, 9, 0x52) ∧
    completion 5 0 3 8 0x101 = some (7, 9, 0x32) := by decide
/-- V-MOD-4. -/
theorem test_mod : completion 6 0x3F7E 0 8 0x11B = some (1, 0, 0x2) := by decide
/-- V-MOD-8. -/
theorem test_mod_without_field : completion 6 5 0 0 0 = some (7, 9, 0x42) := by decide
/-- V-INV-1 and V-INV-22. -/
theorem test_inv :
    completion 7 0x1A 0 8 0x11B = some (0xFD, 0, 0x2) ∧ completion 7 0x1234 0 16 0x1002B = some (0xA959, 0, 0x2) := by decide
/-- V-INV-9, V-INV-12 and V-INV-11. -/
theorem test_inv_checks :
    completion 7 0 0 8 0x11B = some (7, 9, 0x22) ∧ completion 7 3 0 8 0x101 = some (7, 9, 0x32) ∧
    completion 7 0 0 0 0 = some (7, 9, 0x42) := by decide
/-- V-ILL-4. -/
theorem test_illegal_word : completion 0x101 0x1A 0x2B 8 0x11B = some (7, 9, 0x62) := by decide
/-- Trace T1, the fourth row (i = 3). -/
theorem test_mul_trace : gfMulIter 8 0x11B 0x1A 0x2B 4 = (0xFE, 0xBB) := by decide
/-- Trace T5, from row 9 to row 10. -/
theorem test_inv_trace :
    InvPairs.cancel (InvPairs.align { u := 0, v := 3, g1 := 0xFF, g2 := 1 }) = { u := 3, v := 0, g1 := 0x3FD, g2 := 0xFF } := by
  decide

/-! ### The bus: vectors of 95_test_vectors.md section 4 -/

/-- V-BUS-1, V-BUS-2, V-BUS-4, V-BUS-6 and V-BUS-7. -/
theorem test_reads_after_reset :
    [0x000C, 0x0000, 0x0804, 0x0004, 0x0100].map (readWord { State.reset with a := 0x1A }) = [0x00010010, 0, 0, 0, 0] := by decide
/-- V-BUS-3. -/
theorem test_write_m :
    (after (busAccess (.write 0x0008 4 0x00010008) State.reset)).map (fun t => readWord t 0x0008) = some 0x00000008 := by decide
/-- 20_memory.md R51, R52: word 1 of B stands at 0x1004 and holds bits 63:32; word 1 of RES is read at 0x2004. -/
theorem test_word_one :
    (after (busAccess (.write 0x5004 4 0xAABBCCDD) { State.resetOf twoWords with b := 0x0000000500000007 })).map (fun t => t.b) =
      some 0xAABBCCDD00000007 ∧
    readWord { State.resetOf twoWords with res := 0x0000000500000007, rem := 3 } 0x2004 = 5 := by decide
/-- V-BUS-5. -/
theorem test_write_res_ignored : after (busAccess (.write 0x2000 4 5) State.reset) = some State.reset := by decide
/-- V-BUS-8. -/
theorem test_bus_error :
    faultOf (busAccess (.read 0x0000 1) State.reset) = some .busError ∧
    faultOf (busAccess (.read 0x0002 4) State.reset) = some .busError := by decide
/-- 20_memory.md R51, log 7. -/
theorem test_outside_window : refusalOf (busAccess (.read 0x3000 4) State.reset) = some .platformAddress := by decide
/-- V-BUS-9. -/
theorem test_busy_after_command :
    (after (busAccess (.write 0x0004 4 1) State.reset)).map (fun t => readWord t 0x0000) = some 0x1 := by decide
/-- V-BUS-10. -/
theorem test_write_a_in_flight :
    (after (busAccess (.write 0x0800 4 0x55) (inFlight (snap 3 0x1A 0x2B 8 0x11B)))).map (fun t => (t.a, t.inflight)) =
      some (0x55, some (snap 3 0x1A 0x2B 8 0x11B)) := by decide

/-! ### The host program -/

/-- Program P5's first lines, assembled for `NW = 1` (30_encoding.md R76). -/
theorem test_assemble :
    assemble 1 [.wr .a (.const 0x1A), .cmd .mul, .wait, .err 0, .bne 0 (.const 0) 5, .rd .res 1, .label 5, .halt] =
      some [.st 0x0800 (.const 0x1A) 0, .st 0x0004 (.const 3) 0, .ld 0x0000 9 none, .bnz 9 1 2, .ld 0x0000 0 none,
        .assign 0 (.and (.shr (.val (.temp 0)) 4) (.val (.const 0xF))), .bne 0 (.const 0) 8, .ld 0x2000 1 none, .halt] := by
  decide
/-- A two-word register is written and read word by word (20_memory.md R52, 30_encoding.md R76). -/
theorem test_expand_two_words :
    expand 2 [] 0 (.wr .b (.temp 3)) = some [.st 0x1000 (.temp 3) 0, .st 0x1004 (.temp 3) 1] ∧
    expand 2 [] 0 (.rd .rem 4) = some [.ld 0x2800 4 none, .ld 0x2804 4 (some 1)] := by decide
/-- 30_encoding.md R76: `ld` to part 1 of a temporary keeps its word 0. -/
theorem test_ld_part :
    (after (hostStep { State.reset with a := 7, env := { Env.reset with temps := [(4, 9)], prog := [.ld 0x0800 4 (some 1)] } })).map
      (fun t => tempGet t.env.temps 4) = some 0x700000009 := by decide
/-- 10_state.md R36, R37. -/
theorem test_registry :
    registry Config.reference 8 = 0x11B ∧ registry Config.reference 5 = 0x21 ∧
    registry { Config.reference with registryRest := [(5, 0x25)] } 5 = 0x25 := by decide
/-- After the end of the schedule the engine moves while a command is in flight (log 3), and `step` runs the command placed. -/
theorem test_step_runs_placed_word :
    (after (step (State.withFetchWord { State.reset with a := 0x1A, b := 0x2B } 32 1))).map (fun t => (t.res, t.inflight)) =
      some (0x31, none) := by decide

/-! ### Witnesses: what each statement's hypotheses ask, met -/

/-- The field of 95_test_vectors.md, with operands 0x1A and 0x2B. -/
def good (w : Word) : Snapshot := snap w 0x1A 0x2B 8 0x11B

theorem good_inv (w : Word) : (good w).Inv Config.reference where
  a_fits := show 0x1A < 2 ^ wr Config.reference by decide
  b_fits := show 0x2B < 2 ^ wr Config.reference by decide
  p_fits := show 0x11B < 2 ^ wr Config.reference by decide

theorem good_loaded (w : Word) : (good w).FieldLoaded Config.reference :=
  show 1 ≤ 8 ∧ 8 ≤ 16 ∧ deg 0x11B = 8 by decide

/-- The ends of the field check: degrees 1 and 16 are loaded, 0 and 17 are not. -/
theorem witness_field_check_ends :
    (snap 3 1 1 1 2).FieldLoaded Config.reference ∧ (snap 3 0xFFFF 0xFFFF 16 0x1002B).FieldLoaded Config.reference ∧
    ¬ (snap 3 1 1 0 1).FieldLoaded Config.reference ∧ ¬ (snap 3 1 1 17 0x2002B).FieldLoaded Config.reference := by
  refine ⟨⟨by decide, by decide, by decide⟩, ⟨by decide, by decide, by decide⟩, fun h => ?_, fun h => ?_⟩
  · exact absurd h.1 (by decide)
  · exact absurd h.2.1 (by decide)

theorem coprime_of_gfInv {m p a x : Nat} (hm : deg p = m) (h1 : 1 ≤ m) (h : gfInv p a = some x) : Coprime a p :=
  coprime_iff.mpr (gfInv_some hm h1 h).2.1

theorem not_coprime_of_gfInv {m p a : Nat} (hm : deg p = m) (h1 : 1 ≤ m) (h : gfInv p a = none) : ¬ Coprime a p :=
  fun hc => gfInv_none hm h1 h (coprime_iff.mp hc)

theorem coprime_good : Coprime 0x1A 0x11B ∧ Coprime 0x2B 0x11B :=
  ⟨coprime_of_gfInv (m := 8) (x := 0xFD) (by decide) (by decide) (by decide),
    coprime_of_gfInv (m := 8) (x := 0x15) (by decide) (by decide) (by decide)⟩

/-- x^2 + x + 1 is irreducible, of degree 2; x + 1 is, of degree 1. -/
theorem irred_seven_and_three : Irred 0x7 ∧ Irred 0x3 :=
  ⟨irred_of_trial_division (by decide) (by decide), irred_of_trial_division (by decide) (by decide)⟩

/-- x^2 + 1 is (x + 1)^2. -/
theorem not_irred_five : ¬ Irred 0x5 := fun h => by
  rcases h.2 0x3 ⟨0x3, by decide⟩ with h | h <;> exact absurd h (by decide)

theorem witness_CmdWriteWhileIdleIsAccepted : State.reset.inflight = none := by decide

theorem witness_CmdWriteWhileBusyIsDropped : (inFlight (good 3)).inflight = some (good 3) := by decide

theorem witness_StepRunsTheDecodedCommand :
    (inFlight (good 3)).inflight = some (good 3) ∧ decode (good 3).w = .instr .mul ∧
    (inFlight (good 3)).env.schedule = [] ∧
    ({ inFlight (good 3) with env := { Env.reset with schedule := [.engine, .host] } } : State).env.schedule =
      .engine :: [.host] := by decide

/-- The words next to the legal range, 0 and 8. -/
theorem witness_IllegalWordCompletesWithIllegalCommand :
    (inFlight (good 0)).inflight = some (good 0) ∧ ¬ (1 ≤ (good 0).w.toNat ∧ (good 0).w.toNat ≤ 7) ∧
    (inFlight (good 8)).inflight = some (good 8) ∧ ¬ (1 ≤ (good 8).w.toNat ∧ (good 8).w.toNat ≤ 7) := by decide

theorem witness_EngineStepCompletesEveryCommand :
    (inFlight (good 0xFFFFFFFF)).inflight = some (good 0xFFFFFFFF) ∧ State.reset.inflight = none := by decide

theorem witness_CommandInFlightIsEventuallyCompleted :
    (inFlight (good 3)).inflight = some (good 3) ∧ (inFlight (good 3)).env.schedule = [] ∧
    (after (step (inFlight (good 3)))).isSome ∧
    (after (step { inFlight (good 3) with env := { Env.reset with schedule := [.host] } })).isSome := by decide

theorem witness_OutcomeIsAFunctionOfTheSnapshot :
    (inFlight (good 3)).cfg = ({ inFlight (good 3) with a := 5, res := 1 } : State).cfg ∧
    (inFlight (good 3)).inflight = some (good 3) ∧
    ({ inFlight (good 3) with a := 5, res := 1 } : State).inflight = some (good 3) := by decide

theorem witness_FailedCommandWritesOnlyStatus :
    (after (exec .divrem (inFlight (snap 4 0x1A 0 8 0x11B)))).map (fun t => t.status.err) = some .divisionByZero := by decide

/-- Each of the seven commands, and offsets at the ends of the frame's range. -/
theorem witness_CommandFrame :
    (∀ i ∈ [Instr.add, .sub, .mul, .divrem, .div, .mod, .inv], (after (exec i (inFlight (good (encode i))))).isSome) ∧
    (∀ off ∈ [0x0004, 0x1FFC, 0x3000], off ≠ 0x0000 ∧ ¬ (0x2000 ≤ off ∧ off < 0x3000)) := by decide

theorem witness_AddCompletesWithXor :
    (inFlight (good 1)).inflight = some (good 1) ∧ (good 1).Inv (inFlight (good 1)).cfg ∧ (good 1).w = 0x00000001 :=
  ⟨rfl, good_inv 1, rfl⟩

theorem witness_SubCompletesWithXor :
    (inFlight (good 2)).inflight = some (good 2) ∧ (good 2).Inv (inFlight (good 2)).cfg ∧ (good 2).w = 0x00000002 :=
  ⟨rfl, good_inv 2, rfl⟩

/-- The largest value of a 32-bit register, and 0. -/
theorem witness_AdderLaws :
    Fits State.reset.cfg 0xFFFFFFFF ∧ Fits State.reset.cfg 0x1A ∧ Fits State.reset.cfg 0 :=
  ⟨by unfold Fits; decide, by unfold Fits; decide, by unfold Fits; decide⟩

theorem witness_MultiplierComputesReducedProduct : deg 0x11B = (8 : Nat) ∧ 0xFF < 2 ^ 8 ∧ 0 < 2 ^ 8 := by decide

theorem witness_MultiplierWidthBounds :
    Config.reference.wf = true ∧ 16 ≤ Config.reference.mMax ∧ deg 0x1002B = (16 : Nat) ∧ 0xFFFF < 2 ^ 16 := by decide

theorem witness_MultiplierLaws :
    1 ≤ 1 ∧ deg 0x2 = (1 : Nat) ∧ 1 < 2 ^ 1 ∧ deg 0x101 = (8 : Nat) ∧ 0x1A < 2 ^ 8 ∧ 0x2B < 2 ^ 8 ∧ 0xFF < 2 ^ 8 := by decide

/-- V-DR-6: a pair that meets the identity, for divisors 5 and 1. -/
theorem witness_DivisionIdentity :
    0x3F = clmul 0xC 5 ^^^ 3 ∧ deg 3 < deg 5 ∧ 0x1B = clmul 0x1B 1 ^^^ 0 ∧ deg 0 < deg 1 := by decide

theorem witness_ModCompletesWithRemainder :
    (inFlight (good 6)).inflight = some (good 6) ∧ (good 6).FieldLoaded (inFlight (good 6)).cfg :=
  ⟨rfl, good_loaded 6⟩

/-- The start of trace T2 and, after five iterations, its end. -/
theorem witness_InversionLoopInvariant :
    1 ≤ deg 0x11B ∧
    (fun x : InvPairs => x.align.cancel)^[5] { u := 0x1A, v := 0x11B, g1 := 1, g2 := 0 } =
      { u := 1, v := 3, g1 := 0xFD, g2 := 0x1C } := by decide

/-- The longest operand of degree-8 arithmetic, a modulus that inverts it and one that does not, and the field of degree 1. -/
theorem witness_InversionEndsWithinBound :
    1 ≤ 8 ∧ deg 0x11B = (8 : Nat) ∧ deg 0x101 = (8 : Nat) ∧ 0xFF ≠ 0 ∧ 0xFF < 2 ^ 8 ∧ deg 0x2 = (1 : Nat) ∧ 1 < 2 ^ 1 ∧
    gfInv 0x11B 0xFF = some 0x1C ∧ gfInv 0x101 0xFF = none := by decide

theorem witness_InverseExistsExactlyWhenCoprime :
    (1 ≤ 2 ∧ deg 0x5 = (2 : Nat) ∧ ¬ Irred 0x5) ∧ (1 ≤ 8 ∧ deg 0x11B = (8 : Nat) ∧ deg 0x101 = (8 : Nat) ∧ 0x1A ≠ 0 ∧ 0x1A < 2 ^ 8 ∧ 3 ≠ 0 ∧ 3 < 2 ^ 8) ∧
    Coprime 0x1A 0x11B ∧ gfMul 8 0x11B 0x1A 0xFD = 1 ∧ ¬ Coprime 3 0x101 ∧
    (1 ≤ 2 ∧ deg 0x7 = (2 : Nat) ∧ 3 ≠ 0 ∧ 3 < 2 ^ 2) ∧ Irred 0x7 :=
  ⟨⟨by decide, by decide, not_irred_five⟩, by decide, coprime_good.1, by decide, not_coprime_of_gfInv (m := 8) (by decide) (by decide) (by decide), by decide,
    irred_seven_and_three.1⟩

theorem witness_InvCompletesWithInverse :
    (inFlight (good 7)).inflight = some (good 7) ∧ (good 7).FieldLoaded (inFlight (good 7)).cfg ∧ (good 7).a ≠ 0 ∧
    (good 7).a < 2 ^ (good 7).m.toNat ∧ Coprime (good 7).a (good 7).p :=
  ⟨rfl, good_loaded 7, by decide, by decide, coprime_good.1⟩

theorem witness_DivCompletesWithQuotient :
    (inFlight (good 5)).inflight = some (good 5) ∧ (good 5).FieldLoaded (inFlight (good 5)).cfg ∧
    (good 5).a < 2 ^ (good 5).m.toNat ∧ (good 5).b < 2 ^ (good 5).m.toNat ∧ (good 5).b ≠ 0 ∧
    Coprime (good 5).b (good 5).p :=
  ⟨rfl, good_loaded 5, by decide, by decide, by decide, coprime_good.2⟩

theorem witness_InversionAndDivisionLaws :
    (1 ≤ 2 ∧ deg 0x7 = (2 : Nat) ∧ 3 ≠ 0 ∧ 3 < 2 ^ 2 ∧ 2 < 2 ^ 2) ∧ Irred 0x7 ∧
    (1 ≤ 1 ∧ deg 0x3 = (1 : Nat) ∧ 1 ≠ 0 ∧ 1 < 2 ^ 1) ∧ Irred 0x3 ∧
    (inFlight (snap 7 0 0 8 0x11B)).inflight = some (snap 7 0 0 8 0x11B) ∧
    (snap 7 0 0 8 0x11B).FieldLoaded (inFlight (snap 7 0 0 8 0x11B)).cfg ∧ (snap 7 0 0 8 0x11B).a = 0 :=
  ⟨by decide, irred_seven_and_three.1, by decide, irred_seven_and_three.2, rfl, ⟨by decide, by decide, by decide⟩, rfl⟩

/-- Words 0 and `NW - 1`; and an offset beside each. -/
theorem witness_WideWordWriteReadsBack :
    (State.resetOf twoWords).cfg.wf = true ∧ (∀ k ∈ [0, 1], k < nw (State.resetOf twoWords).cfg) ∧
    nw (State.resetOf twoWords).cfg = 2 ∧ 0x0804 % 4 = 0 ∧ 0x0804 ≠ 0x0800 + 4 * 0 ∧ 0x0800 ≠ 0x0800 + 4 * 1 := by decide

/-- The ends of the reserved offsets, and the words next to `NW` and at the end of a span. -/
theorem witness_ReservedReadsZeroAndIgnoresWrites :
    State.reset.cfg.wf = true ∧
    (∀ off ∈ [0x0010, 0x07FC], off % 4 = 0 ∧ 0x0010 ≤ off ∧ off < 0x0800) ∧
    (∀ k ∈ [1, 511], nw State.reset.cfg ≤ k ∧ k < 512 ∧ (span .a + 4 * k) % 4 = 0) ∧
    (∀ off ∈ [0x2000, 0x2FFC], off % 4 = 0 ∧ 0x2000 ≤ off ∧ off < 0x3000) := by decide

/-- A read of the last word of the window, and a write to P's first. -/
theorem witness_OnlyCmdWritesHaveSideEffects :
    (after (busAccess (.read 0x2FFC 4) State.reset)).isSome ∧ (after (busAccess (.write 0x1800 4 7) State.reset)).isSome ∧
    0x1800 ≠ State.reset.cfg.blockBase + 0x0004 := by decide

/-- The smallest and the largest `M_MAX`. -/
theorem witness_ParamReadsTheParameters :
    (State.resetOf { mMax := 1, blockBase := 0, registryRest := [] }).cfg.wf = true ∧
    (State.resetOf { mMax := 8192, blockBase := 0, registryRest := [] }).cfg.wf = true := by decide

theorem witness_ResetEventSetsEveryRegister :
    ({ inFlight (good 3) with env := { Env.reset with schedule := [.reset] } } : State).env.schedule = .reset :: [] := by decide

theorem witness_ResetMeetsTheInvariant : Config.reference.wf = true ∧ tempWf [(0, 4), (9, 1)] = true := by decide

/-- A command accepted right after reset meets the invariant, and a step follows it. -/
theorem witness_EveryStepKeepsTheInvariant :
    (State.reset.accept 3).Inv ∧ (after (step (State.reset.accept 3))).isSome :=
  ⟨{ cfg_wf := by decide
     a_fits := by unfold Fits; decide
     b_fits := by unfold Fits; decide
     p_fits := by unfold Fits; decide
     res_fits := by unfold Fits; decide
     rem_fits := by unfold Fits; decide
     busy_iff := by decide
     not_busy_done := by decide
     err_done := by decide
     snapshot_fits := fun c h => by
       have hc : c = State.reset.snapshot 3 := (Option.some.inj h).symm
       subst hc
       exact ⟨by unfold Fits; decide, by unfold Fits; decide, by unfold Fits; decide⟩
     temps_wf := by decide }, by decide⟩

/-- A state with a command in flight, reached from reset by another bus agent's write to CMD. -/
theorem witness_BusyExactlyWhenInFlight :
    ∃ s : State, Reachable s ∧ s.status.busy = true ∧ s.inflight ≠ none :=
  ⟨State.reset.accept 3,
    .step { State.reset with env := { Env.reset with schedule := [.access (.write 0x0004 4 3)] } } _
      (.reset Config.reference { Env.reset with schedule := [.access (.write 0x0004 4 3)] } (by decide) (by decide)) rfl,
    by decide, by decide⟩

/-- A host line, and an access, while a command is in flight. -/
theorem witness_HostCannotDisturbTheCommandInFlight :
    (after (step { inFlight (good 3) with env := { Env.reset with
      schedule := [.host], prog := [.st 0x0800 (.const 5) 0] } })).map (fun t => t.a) = some 5 ∧
    (after (step { inFlight (good 3) with env := { Env.reset with
      schedule := [.access (.write 0x0004 4 1)] } })).isSome := by decide

/-- A completion that changes RES, and a reset that does. -/
theorem witness_ResultsChangeOnlyByCompletionOrReset :
    (after (step (inFlight (good 1)))).map (fun t => t.res) = some 0x31 ∧ (inFlight (good 1)).res = 7 ∧
    (after (step { inFlight (good 1) with env := { Env.reset with schedule := [.reset] } })).map (fun t => t.res) = some 0 := by
  decide

/-- Steps from an idle state: an acceptance, a read, a reset. -/
theorem witness_ResultsStayUntilNextAcceptance :
    State.reset.inflight = none ∧
    ∀ t ∈ [Turn.access (.write 0x0004 4 3), .access (.read 0x2000 4), .reset],
      (after (step { State.reset with res := 7, env := { Env.reset with schedule := [t] } })).isSome := by decide

theorem witness_OverrunHasTwoOutcomes :
    State.reset.inflight = none ∧
    BusAccess.write 0x0004 4 3 = .write (State.reset.cfg.blockBase + 0x0004) 4 3 ∧
    BusAccess.write 0x0004 4 1 = .write (State.reset.cfg.blockBase + 0x0004) 4 1 := by decide

/-- The first and the last offset of the window, the words 0 and 1 of a value, and a value of 32 bits. -/
theorem witness_HostLinesMakeOneTransaction :
    (∀ off ∈ [0x0000, 0x2FFC], off < 0x3000 ∧ off % 4 = 0) ∧ tempWf [] = true ∧
    (∀ x ∈ [HostLine.st 0x0000 (.const 0xFFFFFFFF) 0, .st 0x2FFC (.const 5) 1, .ld 0x2FFC 1 none, .ld 0x0000 1 (some 0),
        .ld 0x2FFC 1 (some 1)], ({ Env.reset with prog := [x] } : Env).prog[0]? = some x) ∧
    hostValue [] (.const 0xFFFFFFFF) < 2 ^ 32 := by decide

theorem witness_HostControlFlowMakesNoTransaction :
    tempWf [(1, 5)] = true ∧
    ∀ x ∈ [HostLine.assign 1 (.val (.const 2)), .bnz 1 1 7, .beq 1 (.const 5) 7, .bne 1 (.const 5) 7, .halt],
      ({ Env.reset with prog := [x], temps := [(1, 5)] } : Env).prog[0]? = some x := by decide

/-- The two lines of `wait` at line 0, with a command in flight and with none. -/
theorem witness_WaitLoopsWhileBusy :
    tempWf [] = true ∧
    ([.ld 0x0000 9 none, .bnz 9 0x1 0] : List HostLine)[0]? = some (.ld 0x0000 9 none) ∧
    ([.ld 0x0000 9 none, .bnz 9 0x1 0] : List HostLine)[0 + 1]? = some (.bnz 9 0x1 0) ∧
    (inFlight (good 3)).status.busy = true ∧ State.reset.status.busy = false := by decide

/-- Operands at both sides of `2^m` for each of the checks, and a snapshot for each corner case. -/
theorem witness_MulChecksAndResult :
    (inFlight (good 3)).inflight = some (good 3) ∧ (good 3).w = 0x00000003 ∧
    (good 3).FieldLoaded (inFlight (good 3)).cfg ∧ (good 3).a < 2 ^ (good 3).m.toNat ∧ (good 3).b < 2 ^ (good 3).m.toNat ∧
    completion 3 0xFF 0xFF 8 0x11B = some (0x13, 0, 0x2) ∧ completion 3 0x100 0xFF 8 0x11B = some (7, 9, 0x52) ∧
    completion 3 0xFF 0x100 8 0x11B = some (7, 9, 0x52) ∧ completion 3 1 1 17 0x2002B = some (7, 9, 0x42) ∧
    completion 3 0 0xC3 8 0x11B = some (0, 0, 0x2) ∧ completion 3 0xC3 1 8 0x11B = some (0xC3, 0, 0x2) ∧
    completion 3 0x8000 2 16 0x1002B = some (0x002B, 0, 0x2) ∧ completion 3 1 1 1 2 = some (1, 0, 0x2) :=
  ⟨rfl, rfl, good_loaded 3, by decide⟩

/-- V-DR-1 to V-DR-4, one for each corner case. -/
theorem witness_DivremChecksAndResult :
    (inFlight (good 4)).inflight = some (good 4) ∧ (good 4).Inv (inFlight (good 4)).cfg ∧ (good 4).w = 0x00000004 ∧
    (good 4).b ≠ 0 ∧ completion 4 0 5 0 0 = some (0, 0, 0x2) ∧ completion 4 0x1B 1 0 0 = some (0x1B, 0, 0x2) ∧
    completion 4 0x2B 0x2B 0 0 = some (1, 0, 0x2) ∧ deg 0x1A < deg 0x2B ∧
    completion 4 0x1A 0x2B 0 0 = some (0, 0x1A, 0x2) :=
  ⟨rfl, good_inv 4, rfl, by decide⟩

theorem witness_DivisionWidthBounds :
    Fits Config.reference 0xFFFFFFFF ∧ Fits Config.reference 0x80000000 ∧ (0x80000000 : Nat) ≠ 0 ∧ (1 : Nat) ≠ 0 :=
  ⟨by unfold Fits; decide, by unfold Fits; decide, by decide, by decide⟩

/-- A loop that goes on, one that ends, and one that does not start. -/
theorem witness_LongDivisionLoop :
    (3 : Nat) ≠ 0 ∧ bitLen 0x101 ≤ 9 ∧ deg 3 ≤ deg 0x101 ∧ bitLen 1 ≤ 1 ∧ ¬ deg 3 ≤ deg 1 ∧ deg 1 < deg 3 := by decide

/-- V-MOD-1 to V-MOD-3, one for each corner case, and a degree over `M_MAX`. -/
theorem witness_ModChecksAndResult :
    (inFlight (good 6)).inflight = some (good 6) ∧ (good 6).w = 0x00000006 ∧ (good 6).FieldLoaded (inFlight (good 6)).cfg ∧
    completion 6 0xFF 0 8 0x11B = some (0xFF, 0, 0x2) ∧ completion 6 0x11B 0 8 0x11B = some (0, 0, 0x2) ∧
    completion 6 0x100 0 8 0x11B = some (0x1B, 0, 0x2) ∧ completion 6 1 0 17 0x2002B = some (7, 9, 0x42) :=
  ⟨rfl, rfl, good_loaded 6, by decide⟩

/-- A reduction that goes on and one that has ended. -/
theorem witness_ReductionLoop : (0x11B : Nat) ≠ 0 ∧ deg 0x11B ≤ deg 0x100 ∧ ¬ deg 0x11B ≤ deg 0xFF := by decide

theorem witness_ReductionLaws :
    (inFlight (good 6)).inflight = some (good 6) ∧
    (after (exec .mod (inFlight (good 6)))).map (fun t => t.status.err) = some .none ∧
    (0x11B : Nat) ≠ 0 ∧ deg 0xFF < deg 0x11B := by decide

/-- Operands at both ends of the range, and for each corner case one that meets it. -/
theorem witness_InvChecksAndResult :
    (inFlight (good 7)).inflight = some (good 7) ∧ (good 7).w = 0x00000007 ∧ (good 7).FieldLoaded (inFlight (good 7)).cfg ∧
    (completion 7 0xFF 0 8 0x11B = some (0x1C, 0, 0x2) ∧ completion 7 0x100 0 8 0x11B = some (7, 9, 0x52) ∧
      completion 7 0 0 8 0x11B = some (7, 9, 0x22) ∧ completion 7 1 0 1 2 = some (1, 0, 0x2)) ∧
    ((snap 7 3 0 8 0x101).FieldLoaded Config.reference ∧ (3 : Nat) < 2 ^ 8 ∧ ¬ Coprime 3 0x101) ∧
    ((snap 7 3 0 2 7).FieldLoaded Config.reference ∧ (3 : Nat) < 2 ^ 2 ∧ Irred 7) :=
  ⟨rfl, rfl, good_loaded 7, by decide,
    ⟨⟨by decide, by decide, by decide⟩, by decide, not_coprime_of_gfInv (m := 8) (by decide) (by decide) (by decide)⟩,
    ⟨⟨by decide, by decide, by decide⟩, by decide, irred_seven_and_three.1⟩⟩

/-- Operands at both ends of the ranges, and for each corner case one that meets it. -/
theorem witness_DivChecksAndResult :
    (inFlight (good 5)).inflight = some (good 5) ∧ (good 5).w = 0x00000005 ∧ (good 5).FieldLoaded (inFlight (good 5)).cfg ∧
    (completion 5 0xFF 0xFF 8 0x11B = some (1, 0, 0x2) ∧ completion 5 0x100 0xFF 8 0x11B = some (7, 9, 0x52) ∧
      completion 5 0xFF 0x100 8 0x11B = some (7, 9, 0x52) ∧ completion 5 0xFF 0 8 0x11B = some (7, 9, 0x12)) ∧
    (completion 5 0 0x1A 8 0x11B = some (0, 0, 0x2) ∧ completion 5 0x1A 1 8 0x11B = some (0x1A, 0, 0x2) ∧
      completion 5 1 0x1A 8 0x11B = some (0xFD, 0, 0x2) ∧ gfInv 0x11B 0x1A = some 0xFD) ∧
    Coprime 0x1A 0x11B ∧ ¬ Coprime 3 0x101 :=
  ⟨rfl, rfl, good_loaded 5, by decide, by decide, coprime_good.1,
    not_coprime_of_gfInv (m := 8) (by decide) (by decide) (by decide)⟩

/-- The largest value of a two-word register, as the value written and as the value held in each of the five. -/
theorem witness_WideValueIsTheConcatenationOfItsWords :
    (State.resetOf twoWords).cfg.wf = true ∧
    ∀ x ∈ [(State.resetOf twoWords).a, (State.resetOf twoWords).b, (State.resetOf twoWords).p, (State.resetOf twoWords).res,
      (State.resetOf twoWords).rem, 0x123456789ABCDEF0, 0xFFFFFFFFFFFFFFFF], Fits (State.resetOf twoWords).cfg x :=
  ⟨by decide, by unfold Fits; decide⟩

/-- The first and last byte of the window, for a base of 0x4000: an access that completes, and two that do not. -/
theorem witness_MalformedAccessIsABusError :
    (∀ addr ∈ [0x4000, 0x6FFF], (State.resetOf twoWords).cfg.blockBase ≤ addr ∧
      addr < (State.resetOf twoWords).cfg.blockBase + 0x3000) ∧
    (4 = 4 ∧ (0x4000 - (State.resetOf twoWords).cfg.blockBase) % 4 = 0) ∧
    ¬ (4 = 4 ∧ (0x6FFF - (State.resetOf twoWords).cfg.blockBase) % 4 = 0) ∧
    ¬ (1 = 4 ∧ (0x4000 - (State.resetOf twoWords).cfg.blockBase) % 4 = 0) := by decide

/-- The bytes beside the window, for a base of 0x4000. -/
theorem witness_AccessOutsideWindowIsRefused :
    ∀ addr ∈ [0x3FFF, 0x7000], ¬ ((State.resetOf twoWords).cfg.blockBase ≤ addr ∧
      addr < (State.resetOf twoWords).cfg.blockBase + 0x3000) := by decide

/-- No field loaded (M and P 0; a modulus of degree 7 for degree 8), and a nonzero divisor. -/
theorem witness_FieldCommandsFailUntilFieldIsLoaded :
    Fits Config.reference 0x1A ∧ Fits Config.reference 0xFFFFFFFF ∧ Fits Config.reference 0x81 ∧
    ¬ (({ State.reset with a := 0x1A, b := 0xFFFFFFFF } : State).snapshot 3).FieldLoaded Config.reference ∧
    ¬ (({ State.reset with m := 8, p := 0x81 } : State).snapshot 3).FieldLoaded Config.reference ∧ (0xFFFFFFFF : Nat) ≠ 0 := by
  refine ⟨by unfold Fits; decide, by unfold Fits; decide, by unfold Fits; decide, fun h => ?_, fun h => ?_, by decide⟩
  · exact absurd h.1 (by decide)
  · exact absurd h.2.2 (by decide)

/-- An unlisted degree and a listed one; the source's other literal, for degrees 1 and 8; and the fallbacks of degrees 1 and 8. -/
theorem witness_RegistryFallback :
    registryEntry 5 (registryTable Config.reference) = none ∧ registryEntry 8 (registryTable Config.reference) = some 0x11B ∧
    registryEntry 5 (registryTable { Config.reference with registryRest := [(5, 0x25)] }) = some 0x25 ∧
    (inFlight (snap 3 0 0 8 0x81)).inflight = some (snap 3 0 0 8 0x81) ∧ 0x81 = 1 <<< (8 - 1) ||| 1 ∧
    (inFlight (snap 3 0 0 1 1)).inflight = some (snap 3 0 0 1 1) ∧ 1 = 1 <<< (1 - 1) ||| 1 ∧
    1 ≤ 1 ∧ registryDefault 1 = 0x3 ∧ 1 ≤ 8 ∧ registryDefault 8 = 0x101 := by decide

end Sys2Proof.Tests
end

section
/-! PROOFS. What no agent on the host side of the bus can change, and the statements of 10_state.md about every step: the
invariant, BUSY and IF, the command in flight, and the results. -/

namespace Sys2Proof.Machine

/-! ### The frame of the host's turns -/

/-- What a turn of the host side keeps (10_state.md R25, R26, R32, R33): the parameters, RES and REM; and the command in
flight with STATUS, unless it is the acceptance of a command while IF is empty (40_command_cycle.md R100). -/
structure HostFrame (s t : State) : Prop where
  cfg : t.cfg = s.cfg
  res : t.res = s.res
  rem : t.rem = s.rem
  command : (t.inflight = s.inflight ∧ t.status = s.status) ∨
    (s.inflight = none ∧ ∃ w, t.inflight = some (s.snapshot w) ∧ t.status = Status.accepted)

theorem HostFrame.refl (s : State) : HostFrame s s := ⟨rfl, rfl, rfl, .inl ⟨rfl, rfl⟩⟩

/-- The host side's own fields are outside the frame. -/
theorem HostFrame.with_env {s u : State} (h : HostFrame s u) (env : Env) : HostFrame s { u with env := env } :=
  ⟨h.cfg, h.res, h.rem, h.command⟩

theorem State.issue_hostFrame (s : State) (w : Word) : HostFrame s (s.issue w) := by
  rcases s.issue_cases w with ⟨hidle, he⟩ | ⟨_, _, he⟩ <;> rw [he]
  · exact ⟨rfl, rfl, rfl, .inr ⟨hidle, w, rfl, rfl⟩⟩
  · exact .refl s

theorem State.putWide_hostFrame (s : State) (r : WideReg) (k : Nat) (v : Word) : HostFrame s (s.putWide r k v) :=
  ⟨by simp, by simp, by simp, by simp⟩

theorem writeWord_hostFrame (s : State) (off : Nat) (v : Word) : HostFrame s (writeWord s off v) := by
  rcases writeWord_cases s off v with ⟨_, he⟩ | ⟨_, he⟩ | ⟨r, k, _, _, he⟩ | he <;> rw [he]
  · exact s.issue_hostFrame v
  · exact ⟨rfl, rfl, rfl, .inl ⟨rfl, rfl⟩⟩
  · exact s.putWide_hostFrame r k v
  · exact .refl s

theorem busAccess_hostFrame {acc : BusAccess} {s t : State} (h : busAccess acc s = .next t) : HostFrame s t := by
  rcases busAccess_next h with ⟨off, _, _, _, rfl⟩ | ⟨off, v, _, _, _, rfl⟩
  · exact (HostFrame.refl s).with_env _
  · exact writeWord_hostFrame s off v

/-- A step in the turn of the host program or of a bus access. -/
theorem step_hostFrame {s t : State} (h : step s = .next t)
    (hn : nextTurn s = .host ∨ ∃ acc, nextTurn s = .access acc) : HostFrame s t := by
  rcases step_next h with ⟨he, _⟩ | ⟨he, _⟩ | ⟨_, u, hu, pc, temps, rfl, _⟩ | ⟨he, _⟩
  · simp [he] at hn
  · simp [he] at hn
  · have hf : HostFrame s.takeTurn u := by
      rcases hu with ⟨acc, hu⟩ | rfl
      · exact busAccess_hostFrame hu
      · exact .refl _
    exact ⟨hf.cfg, hf.res, hf.rem, hf.command⟩
  · simp [he] at hn

/-- A command in flight stays in flight, with STATUS, over a turn of the host side (10_state.md R33). -/
theorem HostFrame.of_inflight {s t : State} {c : Snapshot} (h : HostFrame s t) (hc : s.inflight = some c) :
    t.inflight = some c ∧ t.status = s.status := by
  rcases h.command with ⟨hi, hs⟩ | ⟨hidle, _⟩
  · exact ⟨hi.trans hc, hs⟩
  · simp [hc] at hidle

theorem nextTurn_of_schedule {s : State} {turn : Turn} {rest : List Turn} (h : s.env.schedule = turn :: rest) :
    nextTurn s = turn := by
  simp [nextTurn, h]

/-! ### The invariant -/

theorem State.Inv.resetOf {cfg : Config} {env : Env} (hc : cfg.wf = true) (ht : tempWf env.temps = true) :
    State.Inv { State.resetOf cfg with env := env } where
  cfg_wf := hc
  a_fits := fits_zero _
  b_fits := fits_zero _
  p_fits := fits_zero _
  res_fits := fits_zero _
  rem_fits := fits_zero _
  busy_iff := rfl
  not_busy_done := by simp
  err_done := fun _ => rfl
  snapshot_fits := by simp
  temps_wf := ht

theorem State.Inv.step {s t : State} (h : s.Inv) (hs : Machine.step s = .next t) : t.Inv := by
  rcases step_next hs with ⟨_, _, rfl⟩ | ⟨_, c, r, _, rfl, _⟩ | ⟨_, u, hu, pc, temps, rfl, ht⟩ | ⟨_, rfl⟩
  · exact h.takeTurn
  · exact h.takeTurn.complete r
  · have hui : u.Inv := by
      rcases hu with ⟨acc, hu⟩ | rfl
      · exact h.takeTurn.busAccess hu
      · exact h.takeTurn
    exact hui.of_env _ (ht hui.temps_wf)
  · exact h.takeTurn.resetEvent

/-- No step changes the parameters (00_scope.md R6), whatever state it starts from. -/
theorem step_cfg {s t : State} (h : step s = .next t) : t.cfg = s.cfg := by
  rcases step_next h with ⟨_, _, rfl⟩ | ⟨_, c, r, _, rfl, _⟩ | ⟨hn, _⟩ | ⟨_, rfl⟩
  · rfl
  · exact State.complete_cfg _ r
  · exact (step_hostFrame h hn).cfg
  · rfl

theorem Reachable.inv {s : State} (h : Reachable s) : s.Inv := by
  induction h with
  | reset cfg env hc ht => exact State.Inv.resetOf hc ht
  | step s t _ hs ih => exact ih.step hs

/-! ### The statements about every step -/

/-- Settles O48: every register is 0 and nothing is in flight. -/
theorem resetMeetsTheInvariant : Obligations.ResetMeetsTheInvariant :=
  ⟨fun _ _ hc ht => State.Inv.resetOf hc ht, State.Inv.resetOf (env := Env.reset) (by decide) rfl⟩

/-- Settles O49, by the cases of a step. -/
theorem everyStepKeepsTheInvariant : Obligations.EveryStepKeepsTheInvariant :=
  fun _ _ h hs => ⟨h.step hs, step_cfg hs⟩

/-- Settles O50, from the invariant of the reachable states. -/
theorem busyExactlyWhenInFlight : Obligations.BusyExactlyWhenInFlight := by
  intro s hr
  have h := hr.inv
  refine ⟨by rw [h.busy_iff, Option.isSome_iff_ne_none], fun hb => ?_⟩
  have hd : s.status.done = false := Bool.eq_false_iff.mpr fun hd => h.not_busy_done ⟨hb, hd⟩
  exact ⟨hd, h.err_done hd⟩

/-- Settles O51, from the frame of the host's turns. -/
theorem hostCannotDisturbTheCommandInFlight : Obligations.HostCannotDisturbTheCommandInFlight := by
  intro s t c hc hsched hs
  have hn : nextTurn s = .host ∨ ∃ acc, nextTurn s = .access acc := by
    rcases hsched with ⟨rest, h | ⟨acc, h⟩⟩
    · exact .inl (nextTurn_of_schedule h)
    · exact .inr ⟨acc, nextTurn_of_schedule h⟩
  have hf := step_hostFrame hs hn
  obtain ⟨hi, hst⟩ := hf.of_inflight hc
  exact ⟨hi, hst, hf.res, hf.rem⟩

/-- Settles O52: among the cases of a step, only a successful completion and the reset event touch RES or REM. -/
theorem resultsChangeOnlyByCompletionOrReset : Obligations.ResultsChangeOnlyByCompletionOrReset := by
  intro s t hs hne
  rcases step_next hs with ⟨_, _, rfl⟩ | ⟨he, c, r, hc, rfl, _⟩ | ⟨hn, _⟩ | ⟨hn, _⟩
  · simp at hne
  · refine .inl ⟨he, by simp [hc], State.complete_inflight _ r, ?_⟩
    cases r with
    | ok r1 r2 => rfl
    | err e => simp [State.complete] at hne
  · have hf := step_hostFrame hs hn
    simp [hf.res, hf.rem] at hne
  · exact .inr hn

end Sys2Proof.Machine
end

section
/-! PROOFS. The statements of 10_state.md about the registers on the bus: M, STATUS, PARAM and the words of the wide
registers. -/

namespace Sys2Proof.Machine

/-! ### M, STATUS and PARAM -/

/-- The low half of a word, the high half cleared. -/
theorem zero_append_extractLsb'_low (v : Word) : (0 : BitVec 16) ++ v.extractLsb' 0 16 = v &&& 0x0000FFFF := by
  refine BitVec.eq_of_toNat_eq ?_
  have hm : (0x0000FFFF : Word).toNat = 2 ^ 16 - 1 := rfl
  rw [BitVec.toNat_and, hm, Nat.and_two_pow_sub_one_eq_mod, BitVec.toNat_append, BitVec.extractLsb'_toNat]
  simp

/-- Settles O40. -/
theorem mRegisterStoresLowHalf : Obligations.MRegisterStoresLowHalf :=
  fun _ v => ⟨busAccess_write (by decide) (by decide), zero_append_extractLsb'_low v⟩

theorem Status.word_busy (t : Status) : t.word.getLsbD 0 = t.busy := by
  rw [Status.word, BitVec.getLsbD_append, if_pos (by decide)]
  simp

theorem Status.word_done (t : Status) : t.word.getLsbD 1 = t.done := by
  rw [Status.word, BitVec.getLsbD_append, if_neg (by decide), BitVec.getLsbD_append, if_pos (by decide)]
  simp

theorem Status.word_reserved_low (t : Status) : t.word.extractLsb' 2 2 = 0 := by
  rw [Status.word, BitVec.extractLsb'_append_eq_of_le (by decide), BitVec.extractLsb'_append_eq_of_le (by decide)]
  exact BitVec.extractLsb'_append_eq_right

theorem Status.word_err (t : Status) : t.word.extractLsb' 4 4 = t.err.code := by
  rw [Status.word, BitVec.extractLsb'_append_eq_of_le (by decide), BitVec.extractLsb'_append_eq_of_le (by decide),
    BitVec.extractLsb'_append_eq_of_le (by decide)]
  exact BitVec.extractLsb'_append_eq_right

theorem Status.word_reserved_high (t : Status) : t.word.extractLsb' 8 24 = 0 := by
  rw [Status.word, BitVec.extractLsb'_append_eq_of_le (by decide), BitVec.extractLsb'_append_eq_of_le (by decide),
    BitVec.extractLsb'_append_eq_of_le (by decide)]
  exact BitVec.extractLsb'_append_eq_left

/-- Settles O44, a field of the word at a time; the codes are those of the definition. -/
theorem statusWordLayout : Obligations.StatusWordLayout :=
  ⟨fun s => ⟨s.status.word_busy, s.status.word_done, s.status.word_reserved_low, s.status.word_err,
    s.status.word_reserved_high⟩, rfl, rfl, rfl, rfl, rfl, rfl, rfl⟩

/-- Both fields of PARAM hold their values whole (10_state.md R32, 00_scope.md R6). -/
theorem paramWord_fields {cfg : Config} (h : cfg.wf = true) :
    ((paramWord cfg).extractLsb' 0 16).toNat = cfg.mMax ∧ ((paramWord cfg).extractLsb' 16 16).toNat = nw cfg := by
  have hn := (nw_le h).2
  have hm := two_mMax_le_wr cfg
  rw [wr] at hm
  rw [paramWord, BitVec.extractLsb'_append_eq_right, BitVec.extractLsb'_append_eq_left, BitVec.toNat_ofNat,
    BitVec.toNat_ofNat]
  exact ⟨Nat.mod_eq_of_lt (by omega), Nat.mod_eq_of_lt (by omega)⟩

/-- Settles O45: PARAM is computed from the parameters, which neither a write nor reset changes. -/
theorem paramReadsTheParameters : Obligations.ParamReadsTheParameters := by
  refine ⟨fun s h => ?_, by decide⟩
  obtain ⟨hm, hn⟩ := paramWord_fields h
  exact ⟨hm, hn, fun v => busAccess_write (by decide) (by decide), rfl⟩

/-! ### The words of the wide registers -/

/-- A write to one word of one wide register leaves every other word of every wide register. -/
theorem wordAt_wide_putWide_other (s : State) {r q : WideReg} {k j : Nat} (v : Word) (h : q = r → j ≠ k) :
    wordAt ((s.putWide r k v).wide q) j = wordAt (s.wide q) j := by
  by_cases hq : q = r
  · subst hq
    cases q
    case a | b | p => exact wordAt_putWord_other _ v (h rfl)
    case res | rem => rfl
  · rw [State.wide_putWide_other s k v hq]

/-- A write to one word of a wide register changes no read at another aligned offset. -/
theorem readWord_putWide_other (s : State) (r : WideReg) (k : Nat) (v : Word) {off : Nat} (ha : off % 4 = 0)
    (hne : off ≠ span r + 4 * k) : readWord (s.putWide r k v) off = readWord s off := by
  unfold readWord
  cases h : region off with
  | word q j =>
    have hoff := off_of_region_word ha h
    have hj : q = r → j ≠ k := by
      rintro rfl rfl
      exact hne hoff
    simp only [State.putWide_cfg, wordAt_wide_putWide_other s v hj]
  | status | cmd | m | param | reserved => simp

/-- A write to word `k < NW` of A, B or P reads back, and every other aligned offset reads as before. -/
theorem busAccess_write_word_reads_back {s : State} (hc : s.cfg.wf = true) {r : WideReg} (hr : r = .a ∨ r = .b ∨ r = .p)
    {k : Nat} (hk : k < nw s.cfg) (v : Word) :
    ∃ t, busAccess (.write (s.cfg.blockBase + (span r + 4 * k)) 4 v) s = .next t ∧ readWord t (span r + 4 * k) = v ∧
      ∀ off, off % 4 = 0 → off ≠ span r + 4 * k → readWord t off = readWord s off := by
  refine ⟨_, busAccess_write_word hc r hk v, ?_, fun off ha hne => readWord_putWide_other s r k v ha hne⟩
  rw [readWord_word (by simpa using hc) r (by simpa using hk), State.wide_putWide_same s k v hr, wordAt_putWord_same]

/-- Settles O37: the offsets of the statement are the spans of 20_memory.md R52, where the rules of the wide registers
speak. -/
theorem wideWordWriteReadsBack : Obligations.WideWordWriteReadsBack := by
  intro s k v hc hk
  refine ⟨busAccess_write_word hc .a hk v, busAccess_write_word hc .b hk v, busAccess_write_word hc .p hk v,
    fun base hbase => ?_, fun q hq => ?_, fun x i => ⟨wordAt_getLsbD x k i, putWord_testBit x k v i⟩⟩
  · have hspan : ∃ r, (r = .a ∨ r = .b ∨ r = .p) ∧ base = span r := by
      simp only [List.mem_cons, List.not_mem_nil, or_false] at hbase
      rcases hbase with rfl | rfl | rfl
      · exact ⟨.a, .inl rfl, rfl⟩
      · exact ⟨.b, .inr (.inl rfl), rfl⟩
      · exact ⟨.p, .inr (.inr rfl), rfl⟩
    obtain ⟨r, hr, rfl⟩ := hspan
    exact busAccess_write_word_reads_back hc hr hk v
  · have hspan : ∃ r, q = (span r, s.wide r) := by
      simp only [List.mem_cons, List.not_mem_nil, or_false] at hq
      rcases hq with rfl | rfl | rfl | rfl | rfl
      exacts [⟨.a, rfl⟩, ⟨.b, rfl⟩, ⟨.p, rfl⟩, ⟨.res, rfl⟩, ⟨.rem, rfl⟩]
    obtain ⟨r, rfl⟩ := hspan
    exact busAccess_read_word hc r hk

end Sys2Proof.Machine
end

section
/-! PROOFS. The statement of 10_state.md about the Field Registry: the fallback x^m + 1 as a polynomial, and the field check
that the source's other literal fails. -/

open Polynomial

namespace Sys2Proof.Machine

/-! ### The fallback x^m + 1 -/

theorem deg_registryDefault (m : Nat) : deg (registryDefault m) = m := by
  have hlt : registryDefault m < 2 ^ (m + 1) := by
    refine Nat.or_lt_two_pow ?_ (Nat.one_lt_two_pow (by omega))
    rw [Nat.one_shiftLeft]
    exact Nat.pow_lt_pow_right (by decide) (by omega)
  have htop : (registryDefault m).testBit m = true := by simp [registryDefault]
  rw [deg_eq_bitLen, bitLen_eq_of hlt htop]
  omega

theorem toPoly_registryDefault {m : Nat} (h : 1 ≤ m) : toPoly (registryDefault m) = X ^ m + 1 := by
  have hbit : (1 : Nat).testBit m = false := testBit_false_of_lt (n := 1) (by decide) h
  rw [registryDefault, Nat.or_comm, or_eq_xor_of_testBit_false hbit, toPoly_xor, toPoly_shiftLeft, toPoly_one, one_mul,
    add_comm]

/-- x + 1 divides x^m + 1, as x - 1 divides x^m - 1 (10_state.md R38). -/
theorem three_polyDvd_registryDefault {m : Nat} (h : 1 ≤ m) : PolyDvd 0b11 (registryDefault m) := by
  have hthree : toPoly 0b11 = X + 1 := (toPoly_registryDefault le_rfl).trans (by rw [pow_one])
  rw [polyDvd_iff, hthree, toPoly_registryDefault h, ← CharTwo.sub_eq_add, ← CharTwo.sub_eq_add]
  exact sub_one_dvd_pow_sub_one X m

/-- x^m + 1 is irreducible only when its factor x + 1 is the whole (10_state.md R38). -/
theorem irred_registryDefault_iff {m : Nat} (h : 1 ≤ m) : Irred (registryDefault m) ↔ m = 1 := by
  constructor
  · intro hirr
    rcases hirr.2 0b11 (three_polyDvd_registryDefault h) with h1 | hself
    · exact absurd h1 (by decide)
    · have hdeg := deg_registryDefault m
      rw [← hself, show deg 0b11 = 1 by decide] at hdeg
      omega
  · rintro rfl
    exact irred_of_trial_division (by decide) (by decide)

/-! ### Commands without a field -/

/-- With no field loaded the field check fails first, in every command that makes it (40_command_cycle.md R104). -/
theorem commandOf_of_not_fieldLoaded {cfg : Config} {c : Snapshot} (h : ¬ c.FieldLoaded cfg) {i : Instr}
    (hi : i ∈ [Instr.mul, .div, .mod, .inv]) : commandOf i cfg c = .err .badField := by
  have hf : ¬ fieldOk cfg c.degree c.p = true := fun hf => h (fieldOk_iff.mp hf)
  simp only [List.mem_cons, List.not_mem_nil, or_false] at hi
  rcases hi with rfl | rfl | rfl | rfl <;> exact if_neg hf

theorem exec_of_not_fieldLoaded {s : State} {c : Snapshot} (hc : s.inflight = some c) (h : ¬ c.FieldLoaded s.cfg)
    {i : Instr} (hi : i ∈ [Instr.mul, .div, .mod, .inv]) : exec i s = .next (s.failed .badField) := by
  rw [exec_of_inflight hc, commandOf_of_not_fieldLoaded h hi]
  rfl

/-- The source's other literal, (1 << (m-1)) | 1, has degree `m - 1`, so it loads no field (90_conflicts.md C1). -/
theorem not_fieldLoaded_of_literal {cfg : Config} {c : Snapshot} (h1 : 1 ≤ c.m.toNat)
    (hp : c.p = 1 <<< (c.m.toNat - 1) ||| 1) : ¬ c.FieldLoaded cfg := by
  rintro ⟨_, _, hdeg⟩
  have hlit : deg c.p = (c.m.toNat - 1 : Nat) := hp ▸ deg_registryDefault _
  omega

/-- Settles O59: the registry's lookups by its definition, the degrees and factors of its fallback by the polynomials. -/
theorem registryFallback : Obligations.RegistryFallback := by
  refine ⟨fun cfg m hnone => ?_, fun cfg m p hsome => by simp only [registry, hsome], fun _ => rfl,
    fun s c hc h1 hp i hi => exec_of_not_fieldLoaded hc (not_fieldLoaded_of_literal h1 hp) hi, fun m h => ?_⟩
  · have hreg : registry cfg m = registryDefault m := by simp only [registry, hnone]
    exact ⟨hreg, fun _ => hreg ▸ deg_registryDefault m⟩
  · have hdvd := three_polyDvd_registryDefault h
    exact ⟨hdvd, (polyDvd_iff_pdivrem (by decide)).mp hdvd, irred_registryDefault_iff h⟩

end Sys2Proof.Machine
end

section
/-! PROOFS. The statements of 20_memory.md: which accesses complete, what a reserved offset answers and ignores, which writes
have a side effect, byte order, whole wide values, and how long a result stays. -/

namespace Sys2Proof.Machine

/-! ### Which accesses complete -/

theorem windowOffset_eq_none {cfg : Config} {addr : Nat} (h : ¬ (cfg.blockBase ≤ addr ∧ addr < cfg.blockBase + 0x3000)) :
    windowOffset cfg addr = none :=
  if_neg fun ⟨hle, hlt⟩ => h ⟨hle, by rw [windowSize] at hlt; omega⟩

/-- Settles O43. -/
theorem accessOutsideWindowIsRefused : Obligations.AccessOutsideWindowIsRefused := by
  intro s addr width v h
  simp only [busAccess, windowOffset_eq_none h, and_self]

/-- The bus error of 20_memory.md R53. -/
theorem busAccess_misaligned {s : State} {off width : Nat} (h : off < windowSize) (hal : ¬ (width = 4 ∧ off % 4 = 0))
    (v : Word) :
    busAccess (.read (s.cfg.blockBase + off) width) s = .fault .busError ∧
      busAccess (.write (s.cfg.blockBase + off) width v) s = .fault .busError := by
  simp only [busAccess, windowOffset_base h, aligned32_iff, if_neg hal, and_self]

/-- Settles O42: every address of the window is `BLOCK_BASE` plus an offset below the window's size. -/
theorem malformedAccessIsABusError : Obligations.MalformedAccessIsABusError := by
  intro s addr width v hle hlt
  obtain ⟨off, rfl⟩ := Nat.exists_eq_add_of_le hle
  have hoff : off < windowSize := Nat.lt_of_add_lt_add_left hlt
  rw [Nat.add_sub_cancel_left]
  refine ⟨fun hw ha => ?_, fun hal => busAccess_misaligned hoff hal v⟩
  subst hw
  exact ⟨⟨_, _, busAccess_read hoff ha, rfl⟩, _, busAccess_write hoff ha⟩

/-! ### Offsets that hold nothing, and registers that only the block writes -/

theorem span_word_lt_window (r : WideReg) {k : Nat} (h : k < 512) : span r + 4 * k < windowSize := by
  have hws : windowSize = 0x3000 := rfl
  obtain ⟨ha, hb, hp, hres, hrem⟩ := span_values
  cases r <;> omega

theorem region_reserved {off : Nat} (h1 : 0x0010 ≤ off) (h2 : off < 0x0800) : region off = .reserved := by
  unfold region
  iterate 4 rw [if_neg (by omega)]
  rw [if_pos h2]

/-- The aligned offsets from 0x2000 up are the words of RES and REM (20_memory.md R51). -/
theorem exists_result_word {off : Nat} (ha : off % 4 = 0) (h1 : 0x2000 ≤ off) (h2 : off < 0x3000) :
    ∃ r k, (r = .res ∨ r = .rem) ∧ k < 512 ∧ off = span r + 4 * k := by
  obtain ⟨_, _, _, hres, hrem⟩ := span_values
  by_cases h : off < 0x2800
  · exact ⟨.res, (off - 0x2000) / 4, .inl rfl, by omega, by omega⟩
  · exact ⟨.rem, (off - 0x2800) / 4, .inr rfl, by omega, by omega⟩

theorem readWord_reserved (s : State) {off : Nat} (h : region off = .reserved) : readWord s off = 0 := by
  simp only [readWord, h]

theorem writeWord_reserved (s : State) {off : Nat} (v : Word) (h : region off = .reserved) : writeWord s off v = s := by
  simp only [writeWord, h]

/-- A non-storage word reads 0 (20_memory.md R52). -/
theorem readWord_nonstorage (s : State) (r : WideReg) {k : Nat} (hk : nw s.cfg ≤ k) (h : k < 512) :
    readWord s (span r + 4 * k) = 0 := by
  simp only [readWord, region_span r h, if_neg hk.not_gt]

/-- A non-storage word ignores writes (20_memory.md R52). -/
theorem writeWord_nonstorage (s : State) (r : WideReg) {k : Nat} (v : Word) (hk : nw s.cfg ≤ k) (h : k < 512) :
    writeWord s (span r + 4 * k) v = s := by
  simp only [writeWord, region_span r h, if_neg hk.not_gt]

/-- RES and REM ignore writes (10_state.md R25, R26). -/
theorem writeWord_result (s : State) {r : WideReg} {k : Nat} (v : Word) (hr : r = .res ∨ r = .rem) (h : k < 512) :
    writeWord s (span r + 4 * k) v = s := by
  simp only [writeWord, region_span r h]
  rcases hr with rfl | rfl <;> exact ite_self s

/-- M stores the low half of the written word alone (10_state.md R24). -/
theorem writeWord_m_low_half (s : State) (v : Word) : writeWord s 0x0008 (v &&& 0x0000FFFF) = writeWord s 0x0008 v := by
  have hlow : (v &&& 0x0000FFFF).extractLsb' 0 16 = v.extractLsb' 0 16 := by
    rw [← zero_append_extractLsb'_low, BitVec.extractLsb'_append_eq_right]
  exact congrArg (fun m => { s with m := m }) hlow

/-- Settles O39, an offset of the register map at a time. -/
theorem reservedReadsZeroAndIgnoresWrites : Obligations.ReservedReadsZeroAndIgnoresWrites := by
  intro s v _
  have hws : windowSize = 0x3000 := rfl
  have reads {off} (hoff : off < windowSize) (ha : off % 4 = 0) (h : readWord s off = 0) :
      ∃ t, busAccess (.read (s.cfg.blockBase + off) 4) s = .next t ∧ t.env.rdata = some 0 :=
    ⟨_, busAccess_read hoff ha, congrArg some h⟩
  have ignores {off} (hoff : off < windowSize) (ha : off % 4 = 0) (h : writeWord s off v = s) :
      busAccess (.write (s.cfg.blockBase + off) 4 v) s = .next s := (busAccess_write hoff ha).trans (congrArg _ h)
  refine ⟨fun off ha h => ?_, fun off ha h => ?_, ?_, BitVec.extractLsb'_append_eq_left, s.status.word_reserved_low,
    s.status.word_reserved_high⟩
  · rcases h with rfl | ⟨h1, h2⟩ | ⟨r, k, hk, h, rfl⟩
    · exact reads (by decide) ha rfl
    · exact reads (by omega) ha (readWord_reserved s (region_reserved h1 h2))
    · exact reads (span_word_lt_window r h) ha (readWord_nonstorage s r hk h)
  · rcases h with rfl | rfl | ⟨h1, h2⟩ | ⟨h1, h2⟩ | ⟨r, k, hk, h, rfl⟩
    · exact ignores (by decide) ha rfl
    · exact ignores (by decide) ha rfl
    · exact ignores (by omega) ha (writeWord_reserved s v (region_reserved h1 h2))
    · obtain ⟨r, k, hr, hk, rfl⟩ := exists_result_word ha h1 h2
      exact ignores h2 ha (writeWord_result s v hr hk)
    · exact ignores (span_word_lt_window r h) ha (writeWord_nonstorage s r v hk h)
  · rw [busAccess_write (by decide) (by decide), busAccess_write (by decide) (by decide), writeWord_m_low_half]

/-! ### Side effects, and how long a result stays -/

/-- A write away from CMD only stores, or is ignored (20_memory.md R56). -/
theorem writeWord_frame_of_ne_cmd (s : State) {off : Nat} (v : Word) (h : off ≠ 4) :
    (writeWord s off v).status = s.status ∧ (writeWord s off v).inflight = s.inflight ∧
      (writeWord s off v).res = s.res ∧ (writeWord s off v).rem = s.rem := by
  rcases writeWord_cases s off v with ⟨hcmd, _⟩ | ⟨_, he⟩ | ⟨r, k, _, _, he⟩ | he
  · exact absurd (region_eq_cmd.mp hcmd) h
  all_goals simp [he]

/-- Settles O41, by what an access that completes can do. -/
theorem onlyCmdWritesHaveSideEffects : Obligations.OnlyCmdWritesHaveSideEffects := by
  refine ⟨fun s t addr width h => ?_, fun s t addr width v h hne => ?_⟩
  · obtain ⟨off, hacc, _, _, rfl⟩ | ⟨_, _, hacc, _⟩ := busAccess_next h <;> cases hacc
    exact ⟨_, rfl, by rw [Nat.add_sub_cancel_left]⟩
  · obtain ⟨_, hacc, _⟩ | ⟨off, _, hacc, _, _, rfl⟩ := busAccess_next h <;> cases hacc
    exact writeWord_frame_of_ne_cmd s v fun hoff => hne (congrArg _ hoff)

/-- Settles O53: an idle engine does nothing, and the host's turns can only accept a command. -/
theorem resultsStayUntilNextAcceptance : Obligations.ResultsStayUntilNextAcceptance := by
  intro s t hidle hs
  rcases step_next hs with ⟨_, _, rfl⟩ | ⟨_, c, _, hc, _⟩ | ⟨hn, _⟩ | ⟨hn, _⟩
  · exact .inr ⟨rfl, rfl, .inl ⟨hidle, rfl⟩⟩
  · simp [hidle] at hc
  · obtain ⟨_, hres, hrem, ⟨hi, hst⟩ | ⟨_, w, hi, hst⟩⟩ := step_hostFrame hs hn
    · exact .inr ⟨hres, hrem, .inl ⟨hi.trans hidle, hst⟩⟩
    · exact .inr ⟨hres, hrem, .inr ⟨_, hi, hst⟩⟩
  · exact .inl hn

/-! ### Byte order -/

theorem wordOfLanes_byteLane (w : Word) :
    wordOfLanes (byteLane w 0) (byteLane w 1) (byteLane w 2) (byteLane w 3) = w := by
  simp only [wordOfLanes, byteLane]
  rw [BitVec.extractLsb'_append_extractLsb'_eq_extractLsb', BitVec.extractLsb'_append_extractLsb'_eq_extractLsb',
    BitVec.extractLsb'_append_extractLsb'_eq_extractLsb', BitVec.extractLsb'_eq_self] <;> rfl

/-- Settles O4. -/
theorem byteLanesAreLittleEndian : Obligations.ByteLanesAreLittleEndian := by
  refine fun w => ⟨fun b _ i hi => ?_, wordOfLanes_byteLane w, congrArg decode (wordOfLanes_byteLane w)⟩
  rw [byteLane, BitVec.getLsbD_extractLsb', decide_eq_true hi, Bool.true_and]

/-! ### Whole wide values, word by word -/

/-- The value of a whole wide register replaced: A, B and P are storage, RES and REM are not (as in `State.putWide`). -/
def State.setWide (s : State) (r : WideReg) (x : Nat) : State :=
  match r with
  | .a => { s with a := x }
  | .b => { s with b := x }
  | .p => { s with p := x }
  | .res => s
  | .rem => s

@[simp] theorem State.setWide_cfg (s : State) (r : WideReg) (x : Nat) : (s.setWide r x).cfg = s.cfg := by
  cases r <;> rfl

@[simp] theorem State.setWide_wide (s : State) (r : WideReg) : s.setWide r (s.wide r) = s := by
  cases r <;> rfl

@[simp] theorem State.putWide_setWide (s : State) (r : WideReg) (x k : Nat) (v : Word) :
    (s.setWide r x).putWide r k v = s.setWide r (putWord x k v) := by
  cases r <;> rfl

/-- The writes of the words `k < n` of `v` to a wide register put these words into it, one after another. -/
theorem busAccesses_write_words {s : State} (hc : s.cfg.wf = true) (r : WideReg) (v : Nat) {n : Nat} (hn : n ≤ nw s.cfg) :
    busAccesses ((List.range n).map fun k => .write (s.cfg.blockBase + (span r + 4 * k)) 4 (wordAt v k)) s =
      .next (s.setWide r ((List.range n).foldl (fun y k => putWord y k (wordAt v k)) (s.wide r))) := by
  induction n with
  | zero => simp
  | succ n ih =>
    rw [List.range_succ, List.map_append, busAccesses_append (ih (by omega)), List.foldl_append]
    generalize (List.range n).foldl (fun y k => putWord y k (wordAt v k)) (s.wide r) = x
    have hw := busAccess_write_word (s := s.setWide r x) (by simpa using hc) r (k := n) (by simpa using hn) (wordAt v n)
    rw [State.setWide_cfg, State.putWide_setWide] at hw
    exact busAccesses_cons hw []

/-- All words of `v` put into a register of the same width make it `v` (20_memory.md R52). -/
theorem foldl_putWord_eq {v x n : Nat} (hv : v < 2 ^ (32 * n)) (hx : x < 2 ^ (32 * n)) :
    (List.range n).foldl (fun y k => putWord y k (wordAt v k)) x = v := by
  refine Nat.eq_of_testBit_eq fun i => ?_
  rw [foldl_putWord_testBit]
  split
  · rfl
  · rw [testBit_false_of_lt hx (by omega), testBit_false_of_lt hv (by omega)]

/-- The writes of all words of `v` load a wide register with `v`. -/
theorem busAccesses_write_wide {s : State} (hc : s.cfg.wf = true) (r : WideReg) {v : Nat} (hv : Fits s.cfg v)
    (hx : Fits s.cfg (s.wide r)) :
    busAccesses ((List.range (nw s.cfg)).map fun k => .write (s.cfg.blockBase + (span r + 4 * k)) 4 (wordAt v k)) s =
      .next (s.setWide r v) := by
  rw [busAccesses_write_words hc r v le_rfl, foldl_putWord_eq hv hx]

/-- Putting word `n` of `x` above its lower words. -/
theorem putWord_mod_wordAt (x n : Nat) : putWord (x % 2 ^ (32 * n)) n (wordAt x n) = x % 2 ^ (32 * (n + 1)) := by
  refine Nat.eq_of_testBit_eq fun i => ?_
  rw [putWord_testBit, Nat.testBit_mod_two_pow, Nat.testBit_mod_two_pow]
  split
  · rename_i h
    rw [wordAt_getLsbD _ _ _ (by omega), decide_eq_true h.2, Bool.true_and, Nat.add_sub_cancel' h.1]
  · congr 2
    simp only [eq_iff_iff]
    omega

/-- The first `n + 1` words of a value, loaded in order into one temporary, the first as the whole of it (30_encoding.md
R76). -/
theorem foldl_loadedValue_wordAt (x y n : Nat) :
    (List.range (n + 1)).foldl (fun y k => loadedValue y (if k = 0 then none else some k) (wordAt x k)) y =
      x % 2 ^ (32 * (n + 1)) := by
  induction n with
  | zero => rfl
  | succ n ih =>
    rw [List.range_succ, List.foldl_append, ih]
    exact putWord_mod_wordAt x (n + 1)

/-- The words read from a wide register, loaded in order into one temporary, are its value. -/
theorem foldl_loadedValue_readWord {s : State} (hc : s.cfg.wf = true) (r : WideReg) (hx : Fits s.cfg (s.wide r)) (y : Nat) :
    (List.range (nw s.cfg)).foldl
      (fun y k => loadedValue y (if k = 0 then none else some k) (readWord s (span r + 4 * k))) y = s.wide r := by
  obtain ⟨n, hn⟩ := Nat.exists_eq_add_of_le' (nw_le hc).1
  calc
    _ = (List.range (nw s.cfg)).foldl
          (fun y k => loadedValue y (if k = 0 then none else some k) (wordAt (s.wide r) k)) y :=
      List.foldl_ext _ _ _ fun y k hk => by rw [readWord_word hc r (List.mem_range.mp hk)]
    _ = s.wide r % 2 ^ wr s.cfg := by rw [wr, hn, foldl_loadedValue_wordAt]
    _ = s.wide r := Nat.mod_eq_of_lt hx

/-- Settles O38: the offsets of the statement are the spans of 20_memory.md R52. -/
theorem wideValueIsTheConcatenationOfItsWords : Obligations.WideValueIsTheConcatenationOfItsWords := by
  intro s v hc hv
  refine ⟨busAccesses_write_wide hc .a hv, busAccesses_write_wide hc .b hv, busAccesses_write_wide hc .p hv,
    fun q hq => ?_⟩
  simp only [List.mem_cons, List.not_mem_nil, or_false] at hq
  rcases hq with rfl | rfl | rfl | rfl | rfl
  exacts [foldl_loadedValue_readWord hc .a, foldl_loadedValue_readWord hc .b, foldl_loadedValue_readWord hc .p,
    foldl_loadedValue_readWord hc .res, foldl_loadedValue_readWord hc .rem]

end Sys2Proof.Machine
end

section
/-! PROOFS. The statements of 30_encoding.md about command words and the commands: the opcode map, the round trip through
the encoder, and what a command leaves unchanged. -/

namespace Sys2Proof

/-! ### The opcode map -/

/-- Only the command's own number decodes to it (30_encoding.md R71). -/
theorem decodeOp_eq_instr_iff {op : BitVec 4} {i : Instr} : decodeOp op = .instr i ↔ op = opcode i := by
  constructor
  · intro h
    unfold decodeOp at h
    split at h <;> cases h
    all_goals exact BitVec.eq_of_toNat_eq (by assumption)
  · rintro rfl
    cases i <;> rfl

theorem decode_eq_instr_iff {w : Word} {i : Instr} : decode w = .instr i ↔ zField w = 0 ∧ opField w = opcode i := by
  unfold decode
  split
  · rename_i hz
    rw [decodeOp_eq_instr_iff, and_iff_right hz]
  · rename_i hz
    exact iff_of_false (by simp) fun h => hz h.1

/-- The rows of R71's table are the commands with their numbers. -/
theorem mem_opcodeTable_iff {op : BitVec 4} {i : Instr} :
    (op, i) ∈ [((1 : BitVec 4), Instr.add), (2, .sub), (3, .mul), (4, .divrem), (5, .div), (6, .mod), (7, .inv)] ↔
      op = opcode i := by
  cases i <;> simp [opcode]

/-- Settles O3. -/
theorem wordNamesOperationExactlyByTable : Obligations.WordNamesOperationExactlyByTable :=
  fun _ _ => decode_eq_instr_iff.trans (and_congr_right' mem_opcodeTable_iff.symm)

/-! ### Encoding and decoding back -/

theorem decode_encode (i : Instr) : decode (encode i) = .instr i :=
  decode_eq_instr_iff.mpr ⟨BitVec.extractLsb'_append_eq_left, BitVec.extractLsb'_append_eq_right⟩

theorem decodeBytes_bytesOfWord (w : Word) : decodeBytes (bytesOfWord w) = decode w :=
  congrArg decode (Machine.wordOfLanes_byteLane w)

/-- A 32-bit row of the opcode table is read as the decoder reads the word. -/
theorem decodeTableWord_of_decode {w : Word} {i : Instr} (h : decode w = .instr i) :
    decodeTableWord 32 w.toNat = some i := by
  simp only [decodeTableWord, Nat.mod_eq_of_lt w.isLt, BitVec.ofNat_toNat, BitVec.setWidth_eq, decodeBytes_bytesOfWord, h,
    le_refl, if_true]

/-- Settles O2. -/
theorem decodeOfEncode : Obligations.DecodeOfEncode :=
  fun i => ⟨decode_encode i, (decodeBytes_bytesOfWord _).trans (decode_encode i), decodeTableWord_of_decode (decode_encode i)⟩

/-- Settles O1: the seven words are the encodings of the commands, and the other three decode by computation. -/
theorem writtenOutWordsDecode : Obligations.WrittenOutWordsDecode :=
  ⟨decode_encode .add, decode_encode .sub, decode_encode .mul, decode_encode .divrem, decode_encode .div,
    decode_encode .mod, decode_encode .inv, by decide⟩

end Sys2Proof

namespace Sys2Proof.Machine

/-! ### The frame of the commands -/

/-- A completion changes no word of the window but STATUS and those of RES and REM (40_command_cycle.md R106, R107). -/
theorem readWord_complete (s : State) (r : CmdResult) {off : Nat} (hstatus : off ≠ 0x0000)
    (hresult : ¬ (0x2000 ≤ off ∧ off < 0x3000)) : readWord (s.complete r) off = readWord s off := by
  unfold readWord
  cases h : region off with
  | status => exact absurd (region_eq_status.mp h) hstatus
  | word q k =>
    cases q with
    | a | b | p => simp [State.wide]
    | res => exact absurd (region_result h (.inl rfl)) hresult
    | rem => exact absurd (region_result h (.inr rfl)) hresult
  | cmd | m | param | reserved => simp

/-- Settles O13: a command that answers a next state is a completion. -/
theorem commandFrame : Obligations.CommandFrame := by
  intro i s t h
  obtain ⟨c, _, rfl⟩ := exec_next h
  exact ⟨State.complete_a _ _, State.complete_b _ _, State.complete_p _ _, State.complete_m _ _, State.complete_cfg _ _,
    State.complete_env _ _, State.complete_inflight _ _, fun _ => readWord_complete s _⟩

end Sys2Proof.Machine
end

section
/-! PROOFS. The statements of 30_encoding.md about the host: one rule per host line, the wait loop, and the expansions of the
pseudo-instructions. -/

namespace Sys2Proof.Machine

theorem hostStep_of_line {s : State} {line : HostLine} (h : s.env.prog[s.env.pc]? = some line) :
    hostStep s = runLine line s := by
  simp only [hostStep, h]

/-! ### Lines that make one transaction -/

@[simp] theorem writeWord_env (s : State) (off : Nat) (v : Word) : (writeWord s off v).env = s.env := by
  rcases writeWord_cases s off v with ⟨_, he⟩ | ⟨_, he⟩ | ⟨r, k, _, _, he⟩ | he <;> rw [he]
  · rcases s.issue_cases v with ⟨_, hi⟩ | ⟨_, _, hi⟩ <;> rw [hi]
    exact s.accept_env v
  · exact s.putWide_env r k v

theorem wordAt_zero_toNat {x : Nat} (h : x < 2 ^ 32) : (wordAt x 0).toNat = x := by
  simpa [wordAt] using h

theorem runLine_st {s : State} {off : Nat} (h : off < windowSize) (ha : off % 4 = 0) (v : HostVal) (k : Nat) :
    runLine (.st off v k) s = .next ((writeWord s off (wordAt (hostValue s.env.temps v) k)).goto (s.env.pc + 1)) := by
  simp only [runLine, busAccess_write h ha, State.nextLine, writeWord_env]

theorem runLine_ld {s : State} {off : Nat} (h : off < windowSize) (ha : off % 4 = 0) (t : Nat) (k : Option Nat) :
    runLine (.ld off t k) s =
      .next ((s.answer (readWord s off)).setTemp t (loadedValue (tempGet s.env.temps t) k (readWord s off))).nextLine := by
  simp only [runLine, busAccess_read h ha]

/-- All a `ld` line does: the word read goes to the temporary or to a part of it, and the block stays as it is. -/
theorem hostStep_ld {s : State} {off t : Nat} {k : Option Nat} (hline : s.env.prog[s.env.pc]? = some (.ld off t k))
    (h : off < windowSize) (ha : off % 4 = 0) (ht : tempWf s.env.temps = true) :
    ∃ u, hostStep s = .next u ∧ u.env.rdata = some (readWord s off) ∧ u.env.pc = s.env.pc + 1 ∧
      (∀ n, tempGet u.env.temps n =
        if n = t then loadedValue (tempGet s.env.temps t) k (readWord s off) else tempGet s.env.temps n) ∧
      u.env.schedule = s.env.schedule ∧ u.env.prog = s.env.prog ∧ u = { s with env := u.env } :=
  ⟨_, (hostStep_of_line hline).trans (runLine_ld h ha t k), rfl, rfl, fun n => tempGet_tempSet t n _ ht, rfl, rfl, rfl⟩

/-- Settles O55. -/
theorem hostLinesMakeOneTransaction : Obligations.HostLinesMakeOneTransaction := by
  intro s off t k v hoff ha ht
  refine ⟨fun hline => ?_, fun hline => hostStep_ld hline hoff ha ht, fun hline => ?_⟩
  · refine ⟨wordAt (hostValue s.env.temps v) k, _, wordAt_getLsbD _ k, ?_, busAccess_write hoff ha,
      (hostStep_of_line hline).trans (runLine_st hoff ha v k)⟩
    rintro rfl hv
    exact wordAt_zero_toNat hv
  · obtain ⟨u, hu, hrdata, hpc, htemps, hsched, hprog, hblock⟩ := hostStep_ld hline hoff ha ht
    have hpart : tempGet u.env.temps t = putWord (tempGet s.env.temps t) k (readWord s off) := by
      rw [htemps, if_pos rfl]
      rfl
    refine ⟨u, hu, hrdata, hpc, fun n hn => by rw [htemps, if_neg hn], ?_, fun j hj => ?_, hsched, hprog, hblock⟩
    · rw [hpart, wordAt_putWord_same]
    · rw [hpart, wordAt_putWord_other _ _ hj]

/-! ### Lines that make none -/

theorem hostStep_bnz {s : State} {t mask l : Nat} (h : s.env.prog[s.env.pc]? = some (.bnz t mask l)) :
    hostStep s = .next (s.goto (if tempGet s.env.temps t &&& mask ≠ 0 then l else s.env.pc + 1)) := by
  rw [hostStep_of_line h, runLine, State.nextLine, ← apply_ite, ite_not]

theorem hostStep_beq {s : State} {t l : Nat} {v : HostVal} (h : s.env.prog[s.env.pc]? = some (.beq t v l)) :
    hostStep s = .next (s.goto (if tempGet s.env.temps t = hostValue s.env.temps v then l else s.env.pc + 1)) := by
  rw [hostStep_of_line h, runLine, State.nextLine, ← apply_ite]

theorem hostStep_bne {s : State} {t l : Nat} {v : HostVal} (h : s.env.prog[s.env.pc]? = some (.bne t v l)) :
    hostStep s = .next (s.goto (if tempGet s.env.temps t ≠ hostValue s.env.temps v then l else s.env.pc + 1)) := by
  rw [hostStep_of_line h, runLine, State.nextLine, ← apply_ite, ite_not]

/-- Settles O56. -/
theorem hostControlFlowMakesNoTransaction : Obligations.HostControlFlowMakesNoTransaction :=
  fun _ t _ _ _ _ ht => ⟨fun h => ⟨_, hostStep_of_line h, fun n => tempGet_tempSet t n _ ht⟩, hostStep_bnz, hostStep_beq,
    hostStep_bne, hostStep_of_line⟩

/-! ### The wait loop -/

/-- The mask of `wait` is BUSY, bit 0 of STATUS (10_state.md R27). -/
theorem Status.word_and_one_ne_zero_iff (t : Status) : t.word.toNat &&& 0x1 ≠ 0 ↔ t.busy = true := by
  rw [← t.word_busy, BitVec.getLsbD, Nat.testBit_zero, Nat.and_one_is_mod, decide_eq_true_iff]
  omega

/-- Settles O57: the load puts STATUS in temporary 9, and the branch tests its BUSY. -/
theorem waitLoopsWhileBusy : Obligations.WaitLoopsWhileBusy := by
  rintro s pos rfl ht hld hbnz
  obtain ⟨u, hu, _, hpc, htemps, _, hprog, hblock⟩ := hostStep_ld hld (by decide) (by decide) ht
  have hline : u.env.prog[u.env.pc]? = some (.bnz 9 0x1 s.env.pc) := by rw [hprog, hpc, hbnz]
  have hstatus : tempGet u.env.temps 9 = s.status.word.toNat := htemps 9
  refine ⟨u, _, hu, hostStep_bnz hline, ?_, ?_⟩
  · rw [hblock]
    rfl
  · simp only [State.goto_env, hstatus, hpc, Status.word_and_one_ne_zero_iff]

/-! ### The pseudo-instructions -/

/-- Settles O58: the lines of `rd` are counted, the others are as the definition gives them. -/
theorem pseudoInstructionsExpand : Obligations.PseudoInstructionsExpand := by
  refine fun n pos labels v i t => ⟨rfl, fun _ => rfl, rfl, rfl, fun r => ⟨_, rfl, by simp, fun k hk => ?_⟩, rfl⟩
  rw [List.getElem?_map, List.getElem?_range hk, Option.map_some]

end Sys2Proof.Machine
end

section
/-! PROOFS. The statements of 40_command_cycle.md: acceptance and drop of a command word, the outcome of the command in
flight as a function of its snapshot, and its completion at the latest when the schedule is used up. -/

namespace Sys2Proof

/-- A command word is its two fields (30_encoding.md R70). -/
theorem zField_append_opField (w : Word) : zField w ++ opField w = w :=
  (BitVec.extractLsb'_append_extractLsb'_eq_extractLsb' (Nat.zero_add 4).symm).trans BitVec.extractLsb'_eq_self

/-- Only the encoding of a command names it (30_encoding.md R71). -/
theorem eq_encode_of_decode {w : Word} {i : Instr} (h : decode w = .instr i) : w = encode i := by
  obtain ⟨hz, hop⟩ := decode_eq_instr_iff.mp h
  rw [← zField_append_opField w, hz, hop, encode]

theorem encode_toNat_bounds (i : Instr) : 1 ≤ (encode i).toNat ∧ (encode i).toNat ≤ 7 := by
  cases i <;> decide

/-- A word outside 1 to 7 names no command (30_encoding.md R72). -/
theorem decode_ne_instr_of_outside {w : Word} (h : ¬ (1 ≤ w.toNat ∧ w.toNat ≤ 7)) (i : Instr) : decode w ≠ .instr i := by
  intro hd
  obtain rfl := eq_encode_of_decode hd
  exact h (encode_toNat_bounds i)

end Sys2Proof

namespace Sys2Proof.Machine

/-! ### Acceptance and drop -/

theorem busAccess_write_cmd (s : State) (w : Word) :
    busAccess (.write (s.cfg.blockBase + 0x0004) 4 w) s = .next (s.issue w) := by
  rw [busAccess_write (by decide) rfl]
  simp only [writeWord, region_eq_cmd.mpr rfl]

theorem State.issue_of_idle {s : State} (h : s.inflight = none) (w : Word) : s.issue w = s.accept w := by
  simp only [State.issue, h]

theorem State.issue_of_inflight {s : State} {c : Snapshot} (h : s.inflight = some c) (w : Word) : s.issue w = s := by
  simp only [State.issue, h]

/-- Settles O5. -/
theorem cmdWriteWhileIdleIsAccepted : Obligations.CmdWriteWhileIdleIsAccepted := by
  intro s w hidle
  rw [busAccess_write_cmd, State.issue_of_idle hidle]
  rfl

/-- Settles O6. -/
theorem cmdWriteWhileBusyIsDropped : Obligations.CmdWriteWhileBusyIsDropped := by
  intro s c w hc
  rw [busAccess_write_cmd, State.issue_of_inflight hc]

/-! ### The outcome of the command in flight -/

/-- What the command of a snapshot ends with: its function's value, or `ILLEGAL_COMMAND` for a word that names none
(40_command_cycle.md R103, R111). -/
def Snapshot.outcome (cfg : Config) (c : Snapshot) : CmdResult :=
  match decode c.w with
  | .instr i => commandOf i cfg c
  | .reject _ => .err .illegalCommand

theorem Snapshot.outcome_of_instr {cfg : Config} {c : Snapshot} {i : Instr} (h : decode c.w = .instr i) :
    c.outcome cfg = commandOf i cfg c := by
  simp only [Snapshot.outcome, h]

theorem Snapshot.outcome_of_reject {cfg : Config} {c : Snapshot} {r : DecodeReject} (h : decode c.w = .reject r) :
    c.outcome cfg = .err .illegalCommand := by
  simp only [Snapshot.outcome, h]

theorem Snapshot.outcome_of_outside {cfg : Config} {c : Snapshot} (h : ¬ (1 ≤ c.w.toNat ∧ c.w.toNat ≤ 7)) :
    c.outcome cfg = .err .illegalCommand := by
  cases hd : decode c.w with
  | instr i => exact absurd hd (decode_ne_instr_of_outside h i)
  | reject r => exact outcome_of_reject hd

theorem Snapshot.outcome_err_ne_none {cfg : Config} {c : Snapshot} {e : ErrCode} (h : c.outcome cfg = .err e) :
    e ≠ .none := by
  cases hd : decode c.w with
  | instr i => exact commandOf_err_ne_none i cfg c e (outcome_of_instr hd ▸ h)
  | reject r =>
    rw [outcome_of_reject hd] at h
    cases h
    decide

/-- The engine's step completes the command in flight with the outcome of its snapshot (40_command_cycle.md R102). -/
theorem engineStep_of_inflight {s : State} {c : Snapshot} (h : s.inflight = some c) :
    engineStep s = .next (s.complete (c.outcome s.cfg)) := by
  unfold engineStep Snapshot.outcome
  rw [h]
  cases hd : decode c.w with
  | instr i => simp only [hd, exec_of_inflight h]
  | reject r => simp only [hd, State.complete]

theorem engineStep_of_idle {s : State} (h : s.inflight = none) : engineStep s = .next s := by
  simp only [engineStep, h]

theorem engineStep_of_decode {s : State} {c : Snapshot} {i : Instr} (h : s.inflight = some c)
    (hd : decode c.w = .instr i) : engineStep s = exec i s := by
  rw [engineStep_of_inflight h, Snapshot.outcome_of_instr hd, exec_of_inflight h]

/-- Settles O8. -/
theorem illegalWordCompletesWithIllegalCommand : Obligations.IllegalWordCompletesWithIllegalCommand := by
  intro s c hc hw
  rw [engineStep_of_inflight hc, Snapshot.outcome_of_outside hw]
  exact ⟨rfl, rfl⟩

/-- Settles O9. -/
theorem engineStepCompletesEveryCommand : Obligations.EngineStepCompletesEveryCommand :=
  ⟨fun _ _ hc => ⟨_, engineStep_of_inflight hc, State.complete_inflight _ _, State.complete_busy _ _,
    State.complete_done _ _⟩, fun _ hidle => ⟨engineStep_of_idle hidle, fun _ => exec_of_idle hidle⟩⟩

/-- Settles O11: both steps complete with the outcome of the one snapshot. -/
theorem outcomeIsAFunctionOfTheSnapshot : Obligations.OutcomeIsAFunctionOfTheSnapshot := by
  intro s s' c hcfg hc hc'
  refine ⟨_, _, engineStep_of_inflight hc, engineStep_of_inflight hc', ?_⟩
  rw [← hcfg]
  cases hr : c.outcome s.cfg with
  | ok r1 r2 => simp [State.complete, hcfg]
  | err e => exact ⟨rfl, .inr ⟨Snapshot.outcome_err_ne_none hr, rfl, rfl, rfl, rfl⟩⟩

/-- Settles O12: a successful completion leaves ERR 0, so the completion is one with an error. -/
theorem failedCommandWritesOnlyStatus : Obligations.FailedCommandWritesOnlyStatus := by
  intro i s t h herr
  obtain ⟨c, _, rfl⟩ := exec_next h
  cases hr : commandOf i s.cfg c with
  | ok r1 r2 => exact absurd rfl (hr ▸ herr)
  | err e => rfl

/-! ### The engine's turn -/

/-- A step in the engine's turn. -/
theorem step_of_engine_turn {s : State} (h : nextTurn s = .engine) : step s = engineStep s.takeTurn := by
  simp only [step, h, runTurn]

/-- With the schedule used up, the engine moves while a command is in flight (log 3). -/
theorem nextTurn_of_schedule_nil {s : State} {c : Snapshot} (hc : s.inflight = some c) (h : s.env.schedule = []) :
    nextTurn s = .engine := by
  simp [nextTurn, h, hc]

/-- While a command is in flight, only the schedule gives another agent the turn. -/
theorem schedule_of_nextTurn_ne_engine {s : State} {c : Snapshot} (hc : s.inflight = some c)
    (h : nextTurn s ≠ .engine) : ∃ rest, s.env.schedule = nextTurn s :: rest := by
  cases hsched : s.env.schedule with
  | nil => exact absurd (nextTurn_of_schedule_nil hc hsched) h
  | cons turn rest => exact ⟨rest, by rw [nextTurn_of_schedule hsched]⟩

/-- Taking the turn off undoes the turn that `placeCommand` puts on (log 14). -/
theorem step_placeCommand (s : State) (w : Word) : step (s.placeCommand w) = engineStep (s.accept w) :=
  step_of_engine_turn rfl

theorem State.withFetchWord_toNat (s : State) (w : Word) : s.withFetchWord 32 w.toNat = s.placeCommand w := by
  rw [State.withFetchWord, Nat.mod_eq_of_lt w.isLt, BitVec.ofNat_toNat, BitVec.setWidth_eq]

/-- Settles O7. -/
theorem stepRunsTheDecodedCommand : Obligations.StepRunsTheDecodedCommand := by
  refine ⟨fun s c i hc hd hsched => ?_, fun s i => ?_⟩
  · have hturn : nextTurn s = .engine := by
      rcases hsched with h | ⟨rest, h⟩
      · exact nextTurn_of_schedule_nil hc h
      · exact nextTurn_of_schedule h
    exact (step_of_engine_turn hturn).trans (engineStep_of_decode hc hd)
  · rw [State.withFetchWord_toNat, step_placeCommand]
    exact engineStep_of_decode (s.accept_inflight _) (decode_encode i)

/-! ### The schedule runs out -/

theorem busAccess_schedule {acc : BusAccess} {s t : State} (h : busAccess acc s = .next t) :
    t.env.schedule = s.env.schedule := by
  rcases busAccess_next h with ⟨off, _, _, _, rfl⟩ | ⟨off, v, _, _, _, rfl⟩
  · rfl
  · rw [writeWord_env]

/-- Every step that completes uses up one turn (log 2). -/
theorem step_schedule {s t : State} (h : step s = .next t) : t.env.schedule = s.env.schedule.tail := by
  rcases step_next h with ⟨_, _, rfl⟩ | ⟨_, c, r, _, rfl, _⟩ | ⟨_, u, hu, pc, temps, rfl, _⟩ | ⟨_, rfl⟩
  · rfl
  · rw [State.complete_env, State.takeTurn_env]
  · rcases hu with ⟨acc, hu⟩ | rfl
    · exact busAccess_schedule hu
    · rfl
  · rfl

/-- Settles O10: by the cases of a step; a turn of the host side keeps the snapshot and shortens the schedule. -/
theorem commandInFlightIsEventuallyCompleted : Obligations.CommandInFlightIsEventuallyCompleted := by
  intro s c hc
  refine ⟨fun t hs => ?_, fun hnil => ?_⟩
  · rcases step_next hs with ⟨_, hidle, _⟩ | ⟨_, _, r, _, rfl, _⟩ | ⟨hn, _⟩ | ⟨hn, _⟩
    · simp [hc] at hidle
    · exact .inl ⟨State.complete_inflight _ r, State.complete_busy _ r, State.complete_done _ r⟩
    · have hne : nextTurn s ≠ .engine := by
        rcases hn with hn | ⟨acc, hn⟩ <;> simp [hn]
      obtain ⟨rest, hsched⟩ := schedule_of_nextTurn_ne_engine hc hne
      obtain ⟨hi, _⟩ := (step_hostFrame hs hn).of_inflight hc
      exact .inr (.inr ⟨hi, by simp [step_schedule hs, hsched]⟩)
    · obtain ⟨rest, hsched⟩ := schedule_of_nextTurn_ne_engine hc (by simp [hn])
      exact .inr (.inl ⟨rest, hn ▸ hsched⟩)
  · rw [step_of_engine_turn (nextTurn_of_schedule_nil hc hnil)]
    exact engineStepCompletesEveryCommand.1 s.takeTurn c hc

end Sys2Proof.Machine
end

section
/-! PROOFS. The statements of 41_add_sub.md: ADD and SUB on any operands, and the adder's laws. -/

namespace Sys2Proof.Machine

/-- "Identical to add" (41_add_sub.md R121), in every state. -/
theorem exec_sub (s : State) : exec .sub s = exec .add s := rfl

/-- ADD asks of its operands only that the exclusive OR fits RES: no field check and no range check (41_add_sub.md R120). -/
theorem exec_add {s : State} {c : Snapshot} (h : s.inflight = some c) (ha : Fits s.cfg c.a) (hb : Fits s.cfg c.b) :
    exec .add s = .next (s.succeeded (c.a ^^^ c.b) 0) :=
  exec_of_fits h ⟨xor_lt ha hb, fits_zero s.cfg⟩

theorem exec_add_carrying {s : State} {x y : Nat} (c : Snapshot) (hx : Fits s.cfg x) (hy : Fits s.cfg y) :
    exec .add (s.carrying c x y) = .next (s.succeeded (x ^^^ y) 0) :=
  exec_add (s.carrying_inflight c x y) hx hy

/-- Settles O14. -/
theorem addCompletesWithXor : Obligations.AddCompletesWithXor :=
  fun _ _ hc hf => ⟨exec_add hc hf.a_fits hf.b_fits, xor_lt hf.a_fits hf.b_fits, engineStep_of_encode (i := .add) hc⟩

/-- Settles O15: SUB is ADD, and swapped operands have the same exclusive OR. -/
theorem subCompletesWithXor : Obligations.SubCompletesWithXor := by
  intro s c hc hf
  refine ⟨?_, xor_lt hf.a_fits hf.b_fits, ?_, engineStep_of_encode (i := .sub) hc⟩
  · rw [exec_sub, exec_add hc hf.a_fits hf.b_fits]
  · rw [exec_sub, exec_sub, exec_add_carrying c hf.b_fits hf.a_fits, exec_add hc hf.a_fits hf.b_fits, Nat.xor_comm]

/-- Settles O16: each law is a law of the exclusive OR in RES, and the operands of a nested ADD fit as well. -/
theorem adderLaws : Obligations.AdderLaws := by
  intro s c x y z hx hy hz
  have hxy : Fits s.cfg (x ^^^ y) := xor_lt hx hy
  have hyz : Fits s.cfg (y ^^^ z) := xor_lt hy hz
  refine ⟨exec_sub _, ?_, ?_, ?_, ?_⟩
  · rw [exec_add_carrying c hx hy, exec_add_carrying c hy hx, Nat.xor_comm]
  · rw [exec_add_carrying c hxy hz, exec_add_carrying c hx hyz, Nat.xor_assoc]
  · rw [exec_add_carrying c hx hx, Nat.xor_self]
  · rw [exec_add_carrying c hxy hy, Nat.xor_xor_cancel_right]

end Sys2Proof.Machine
end

section
/-! PROOFS. The statements of 42_multiply.md: the multiplier as the reduced carry-less product, its widths, its laws, and MUL
with its checks and corner cases. -/

open Polynomial

namespace Sys2Proof.Machine

/-! ### The reduced carry-less product -/

/-- The value of the remainder's polynomial is the remainder. -/
theorem eq_pmod_of_toPoly {p x y : Nat} (hp : p ≠ 0) (h : toPoly x = toPoly y %ₘ toPoly p) : x = pmod p y :=
  toPoly_injective (h.trans (toPoly_pmod hp y).symm)

theorem gfMulIter_snd_eq_pmod {m p a : Nat} (b : Nat) (hm : deg p = m) (ha : a < 2 ^ m) (i : Nat) :
    (gfMulIter m p a b i).2 = pmod p (a <<< i) :=
  eq_pmod_of_toPoly (ne_zero_of_deg hm) (gfMulIter_spec b hm ha i).2.2.2

theorem gfMulIter_fst_eq_pmod {m p a : Nat} (b : Nat) (hm : deg p = m) (ha : a < 2 ^ m) (i : Nat) :
    (gfMulIter m p a b i).1 = pmod p (clmulBelow a b i) :=
  eq_pmod_of_toPoly (ne_zero_of_deg hm) (gfMulIter_spec b hm ha i).2.2.1

/-- The product in terms of the model's own operations (42_multiply.md R133). -/
theorem gfMul_eq_pmod {m p a b : Nat} (hm : deg p = m) (ha : a < 2 ^ m) (hb : b < 2 ^ m) :
    gfMul m p a b = pmod p (clmul a b) := by
  rw [gfMul, gfMulIter_fst_eq_pmod b hm ha, clmulBelow_of_bitLen_le a (bitLen_le_iff.mpr hb)]

/-- Settles O18: after the `m` iterations every bit of `b` is counted. -/
theorem multiplierComputesReducedProduct : Obligations.MultiplierComputesReducedProduct :=
  ⟨fun _ _ _ b hm ha hb => ⟨gfMul_eq_pmod hm ha hb,
    fun i _ => ⟨gfMulIter_snd_eq_pmod b hm ha i, gfMulIter_fst_eq_pmod b hm ha i⟩⟩, by decide, by decide⟩

/-- Settles O19: the widths are part of the loop's invariant, and a wide register holds `2 * M_MAX` bits and at least one word. -/
theorem multiplierWidthBounds : Obligations.MultiplierWidthBounds := by
  intro cfg m p a b hcfg hmax hm ha _
  refine ⟨fun i _ => ?_, gfMul_lt b hm ha, Nat.pow_le_pow_right (by decide) hmax, Nat.pow_lt_pow_right (by decide) ?_⟩
  · obtain ⟨hacc, hshift, _⟩ := gfMulIter_spec b hm ha i
    exact ⟨hshift, shiftLeft_lt hshift, hacc⟩
  · have hpos := (nw_le hcfg).1
    have hwide := two_mMax_le_wr cfg
    rw [wr] at hwide ⊢
    omega

/-! ### The laws -/

theorem gfMul_comm {m p a b : Nat} (hm : deg p = m) (ha : a < 2 ^ m) (hb : b < 2 ^ m) :
    gfMul m p a b = gfMul m p b a :=
  toPoly_injective (by rw [toPoly_gfMul hm ha hb, toPoly_gfMul hm hb ha, mul_comm])

theorem gfMul_zero {m p a : Nat} (hm : deg p = m) (ha : a < 2 ^ m) : gfMul m p a 0 = 0 :=
  toPoly_injective (by rw [toPoly_gfMul hm ha (Nat.two_pow_pos m), toPoly_zero, mul_zero, zero_modByMonic])

theorem gfMul_one {m p a : Nat} (h1 : 1 ≤ m) (hm : deg p = m) (ha : a < 2 ^ m) : gfMul m p a 1 = a := by
  refine toPoly_injective ?_
  rw [toPoly_gfMul hm ha (Nat.one_lt_two_pow (by omega)), toPoly_one, mul_one, toPoly_modByMonic_of_lt hm ha]

/-- Reducing a factor first does not change the reduced product. -/
theorem modByMonic_mul_modByMonic {q : (ZMod 2)[X]} (hq : q.Monic) (f g : (ZMod 2)[X]) :
    (f %ₘ q * g) %ₘ q = (f * g) %ₘ q := by
  refine modByMonic_eq_of_dvd_sub hq ⟨-(f /ₘ q * g), ?_⟩
  linear_combination g * modByMonic_add_div f q

/-- Both groupings are the product of the three operands, reduced. -/
theorem gfMul_assoc {m p a b c : Nat} (hm : deg p = m) (ha : a < 2 ^ m) (hb : b < 2 ^ m) (hc : c < 2 ^ m) :
    gfMul m p (gfMul m p a b) c = gfMul m p a (gfMul m p b c) := by
  have hmon := toPoly_monic (ne_zero_of_deg hm)
  rw [gfMul_comm hm ha (gfMul_lt c hm hb)]
  refine toPoly_injective ?_
  rw [toPoly_gfMul hm (gfMul_lt b hm ha) hc, toPoly_gfMul hm ha hb, modByMonic_mul_modByMonic hmon,
    toPoly_gfMul hm (gfMul_lt c hm hb) ha, toPoly_gfMul hm hb hc, modByMonic_mul_modByMonic hmon,
    mul_comm (toPoly b * toPoly c), mul_assoc]

theorem gfMul_xor {m p a b c : Nat} (hm : deg p = m) (ha : a < 2 ^ m) (hb : b < 2 ^ m) (hc : c < 2 ^ m) :
    gfMul m p a (b ^^^ c) = gfMul m p a b ^^^ gfMul m p a c := by
  refine toPoly_injective ?_
  rw [toPoly_gfMul hm ha (xor_lt hb hc), toPoly_xor, toPoly_xor, toPoly_gfMul hm ha hb, toPoly_gfMul hm ha hc, mul_add,
    add_modByMonic]

/-- Settles O20: the laws of polynomials modulo a monic one, which need not be irreducible. -/
theorem multiplierLaws : Obligations.MultiplierLaws :=
  fun _ _ _ _ _ h1 hm ha hb hc =>
    ⟨gfMul_comm hm ha hb, gfMul_zero hm ha, gfMul_one h1 hm ha, gfMul_assoc hm ha hb hc, gfMul_xor hm ha hb hc⟩

/-! ### The corner cases -/

theorem gfMul_eq_zero {m p a b : Nat} (hm : deg p = m) (ha : a < 2 ^ m) (hb : b < 2 ^ m) (h : a = 0 ∨ b = 0) :
    gfMul m p a b = 0 := by
  rcases h with rfl | rfl
  · rw [gfMul_comm hm ha hb, gfMul_zero hm hb]
  · exact gfMul_zero hm ha

/-- The remainder of x^m modulo `p` is `p` without its top bit. -/
theorem pmod_two_pow_degree {m p : Nat} (hm : deg p = m) : pmod p (2 ^ m) = p ^^^ 2 ^ m := by
  have hp := ne_zero_of_deg hm
  have hlen := bitLen_of_deg hm
  have htop : p.testBit m = true := by simpa [hlen] using testBit_top hp
  have hlt : p ^^^ 2 ^ m < 2 ^ m :=
    xor_lt_of_top (bitLen_le_iff.mp hlen.le) (Nat.pow_lt_pow_right (by decide) (by omega)) htop Nat.testBit_two_pow_self
  refine (eq_pmod_of_toPoly hp (toPoly_eq_modByMonic hp ?_ ?_)).symm
  · rw [toPoly_xor, sub_add_cancel_right]
    exact (dvd_refl _).neg_right
  · rw [hlen, Nat.lt_succ_iff]
    exact bitLen_le_iff.mpr hlt

theorem toPoly_two : toPoly 2 = X := by simpa using toPoly_two_pow 1

/-- x^(m-1) times x wraps around once (42_multiply.md R131). -/
theorem gfMul_two_pow_two {m p : Nat} (h2 : 2 ≤ m) (hm : deg p = m) : gfMul m p (2 ^ (m - 1)) 2 = p ^^^ 2 ^ m := by
  have hprod : clmul (2 ^ (m - 1)) 2 = 2 ^ m := by
    refine toPoly_injective ?_
    rw [toPoly_clmul, toPoly_two, toPoly_two_pow, toPoly_two_pow, pow_sub_one_mul (by omega)]
  have ha : 2 ^ (m - 1) < 2 ^ m := Nat.pow_lt_pow_right (by decide) (by omega)
  have hb : 2 < 2 ^ m := lt_self_pow₀ (by decide) h2
  rw [gfMul_eq_pmod hm ha hb, hprod, pmod_two_pow_degree hm]

/-- Over the field of two elements multiplication is the logical AND. -/
theorem gfMul_degree_one {p a b : Nat} (hm : deg p = (1 : Nat)) (ha : a < 2 ^ 1) (hb : b < 2 ^ 1) :
    gfMul 1 p a b = a &&& b := by
  obtain rfl | rfl : b = 0 ∨ b = 1 := by omega
  · rw [gfMul_zero hm ha, Nat.and_zero]
  · rw [gfMul_one le_rfl hm ha, Nat.and_one_is_mod, Nat.mod_eq_of_lt (by simpa using ha)]

/-! ### The command -/

/-- What MUL answers, its checks in order (42_multiply.md R131). -/
theorem exec_mul {s : State} {c : Snapshot} (hc : s.inflight = some c) :
    exec .mul s = .next
      (if ¬ (1 ≤ c.m.toNat ∧ c.m.toNat ≤ s.cfg.mMax ∧ deg c.p = c.m.toNat) then s.failed .badField
       else if ¬ c.a < 2 ^ c.m.toNat then s.failed .operandRange
       else if ¬ c.b < 2 ^ c.m.toNat then s.failed .operandRange
       else s.succeeded (gfMul c.m.toNat c.p c.a c.b) 0) := by
  rw [exec_of_fits (i := .mul) hc (mulCmd_fits s.cfg c)]
  simp only [commandOf, mulCmd, fieldOk_iff, inRange_iff, apply_ite s.completeExactly, ite_not]
  rfl

theorem exec_mul_of_reduced {s : State} {c : Snapshot} (hc : s.inflight = some c) (hf : c.FieldLoaded s.cfg)
    (ha : c.a < 2 ^ c.m.toNat) (hb : c.b < 2 ^ c.m.toNat) :
    exec .mul s = .next (s.succeeded (gfMul c.m.toNat c.p c.a c.b) 0) := by
  rw [Snapshot.FieldLoaded] at hf
  rw [exec_mul hc, if_neg (not_not_intro hf), if_neg (not_not_intro ha), if_neg (not_not_intro hb)]

/-- Settles O17: each corner case is one of the product of reduced operands. -/
theorem mulChecksAndResult : Obligations.MulChecksAndResult := by
  intro s c hc
  refine ⟨exec_mul hc, engineStep_of_encode (i := .mul) hc, fun hf ha hb => ?_⟩
  have ⟨h1, _, hm⟩ := hf
  rw [exec_mul_of_reduced hc hf ha hb]
  refine ⟨fun h => ?_, fun h => ?_, fun h2 hx hy => ?_, fun hone => ?_, ?_⟩
  · rw [gfMul_eq_zero hm ha hb h]
  · rw [h, gfMul_one h1 hm ha]
  · rw [hx, hy, gfMul_two_pow_two h2 hm]
  · rw [hone] at hm ha hb ⊢
    rw [gfMul_degree_one hm ha hb]
  · rw [gfMul_eq_pmod hm ha hb]

end Sys2Proof.Machine
end

section
/-! PROOFS. The statements of 43_long_division.md: the loop and its iterations, the division identity with the one pair that
meets it, the widths of both results, and DIVREM with its check and corner cases. -/

open Polynomial

namespace Sys2Proof.Machine

/-! ### The loop -/

theorem deg_lt_deg_iff {x y : Nat} : deg x < deg y ↔ bitLen x < bitLen y :=
  lt_iff_lt_of_le_iff_le deg_le_iff

/-- The degree of the remainder drops in every iteration (43_long_division.md R140). -/
theorem deg_cancel_lt {b r : Nat} (hb : b ≠ 0) (h : deg b ≤ deg r) :
    deg (r ^^^ b <<< (deg r - deg b).toNat) < deg r := by
  rw [deg_sub_toNat, deg_lt_deg_iff]
  exact bitLen_cancel_lt hb (deg_le_iff.mp h)

theorem pdivremLoop_of_deg_lt {b r : Nat} (h : deg r < deg b) (n q : Nat) : pdivremLoop b n q r = (q, r) := by
  cases n with
  | zero => rfl
  | succ n => rw [pdivremLoop, if_neg (not_le.mpr h)]

theorem pdivremLoop_succ_of_deg_le {b r : Nat} (h : deg b ≤ deg r) (n q : Nat) :
    pdivremLoop b (n + 1) q r =
      pdivremLoop b n (q ||| 1 <<< (deg r - deg b).toNat) (r ^^^ b <<< (deg r - deg b).toNat) := by
  rw [pdivremLoop, if_pos h]

/-- One iteration beyond `deg(r) - deg(b) + 1` changes nothing: the loop has ended before. -/
theorem pdivremLoop_succ {b n q r : Nat} (hb : b ≠ 0) (hn : deg r - deg b < n) :
    pdivremLoop b (n + 1) q r = pdivremLoop b n q r := by
  induction n generalizing q r with
  | zero =>
    have hlt : deg r < deg b := by simpa using hn
    rw [pdivremLoop_of_deg_lt hlt, pdivremLoop_of_deg_lt hlt]
  | succ n ih =>
    rcases lt_or_ge (deg r) (deg b) with hlt | hle
    · rw [pdivremLoop_of_deg_lt hlt, pdivremLoop_of_deg_lt hlt]
    · have hdrop := deg_cancel_lt hb hle
      rw [pdivremLoop_succ_of_deg_le hle, pdivremLoop_succ_of_deg_le hle, ih (by omega)]

/-- Any two sufficient bounds on the iterations give the same pair (log 12). -/
theorem pdivremLoop_eq_of_le {b n k q r : Nat} (hb : b ≠ 0) (hn : deg r - deg b < n) (hk : n ≤ k) :
    pdivremLoop b n q r = pdivremLoop b k q r := by
  induction k, hk using Nat.le_induction with
  | base => rfl
  | succ k hk ih => rw [ih, pdivremLoop_succ hb (by omega)]

theorem deg_nonneg {b : Nat} (hb : b ≠ 0) : 0 ≤ deg b := by
  have := bitLen_pos hb
  rw [deg_eq_bitLen]
  omega

theorem deg_zero_lt {b : Nat} (hb : b ≠ 0) : deg 0 < deg b :=
  (by decide : deg 0 < 0).trans_le (deg_nonneg hb)

/-- The length of the remainder is a sufficient bound on the iterations. -/
theorem deg_sub_lt_of_bitLen_le {b n r : Nat} (hb : b ≠ 0) (hn : bitLen r ≤ n) : deg r - deg b < n := by
  have := deg_nonneg hb
  rw [deg_eq_bitLen r]
  omega

/-- The loop's recursion with its bound left as it is (43_long_division.md R140). -/
theorem pdivremLoop_unroll {b n r : Nat} (q : Nat) (hb : b ≠ 0) (hn : deg r - deg b < n) :
    pdivremLoop b n q r =
      if deg b ≤ deg r then
        pdivremLoop b n (q ||| 1 <<< (deg r - deg b).toNat) (r ^^^ b <<< (deg r - deg b).toNat)
      else (q, r) := by
  split
  · rename_i hle
    rw [← pdivremLoop_succ hb hn, pdivremLoop_succ_of_deg_le hle]
  · rename_i hlt
    exact pdivremLoop_of_deg_lt (not_le.mp hlt) n q

theorem pdivrem_of_deg_lt {a b : Nat} (h : deg a < deg b) : pdivrem a b = (0, a) :=
  pdivremLoop_of_deg_lt h _ 0

theorem pdivremLoop_eq_pdivrem {a b n : Nat} (hb : b ≠ 0) (hn : deg a - deg b < n) :
    pdivremLoop b n 0 a = pdivrem a b := by
  rcases le_total n (bitLen a) with hle | hle
  · exact pdivremLoop_eq_of_le hb hn hle
  · exact (pdivremLoop_eq_of_le hb (deg_sub_lt_of_bitLen_le hb le_rfl) hle).symm

/-- Settles O24: the degree drops in every iteration, so `deg(r) - deg(b) + 1` iterations reach the loop's end. -/
theorem longDivisionLoop : Obligations.LongDivisionLoop :=
  ⟨fun _ _ q _ hb hn => pdivremLoop_unroll q hb (deg_sub_lt_of_bitLen_le hb hn), fun _ _ hb h => deg_cancel_lt hb h,
    fun _ _ hb => pdivremLoop_eq_pdivrem hb (by omega), fun _ _ h => pdivrem_of_deg_lt h⟩

/-! ### The division identity -/

/-- The division identity, read over the polynomials. -/
theorem eq_clmul_xor_iff {a b q r : Nat} : a = clmul q b ^^^ r ↔ toPoly q * toPoly b + toPoly r = toPoly a := by
  rw [← toPoly_inj, toPoly_xor, toPoly_clmul, eq_comm]

theorem deg_pdivrem_snd_lt (a : Nat) {b : Nat} (hb : b ≠ 0) : deg (pdivrem a b).2 < deg b :=
  deg_lt_deg_iff.mpr (bitLen_pdivrem_snd_lt a hb)

/-- The pair that meets the identity is the one `pdivrem` gives (43_long_division.md R142). -/
theorem pdivrem_eq_of_identity {a b q r : Nat} (hb : b ≠ 0) (h : a = clmul q b ^^^ r) (hr : deg r < deg b) :
    pdivrem a b = (q, r) := by
  obtain ⟨hq, hrem⟩ := pdivrem_unique (bitLen_pdivrem_snd_lt a hb) (deg_lt_deg_iff.mp hr)
    ((toPoly_pdivrem a hb).trans (eq_clmul_xor_iff.mp h).symm)
  exact Prod.ext hq hrem

/-- Settles O22. -/
theorem divisionIdentity : Obligations.DivisionIdentity :=
  fun a _ hb => ⟨eq_clmul_xor_iff.mpr (toPoly_pdivrem a hb), deg_pdivrem_snd_lt a hb,
    fun _ _ h hr => (pdivrem_eq_of_identity hb h hr).symm⟩

theorem pdivrem_one (a : Nat) : pdivrem a 1 = (a, 0) :=
  pdivrem_eq_of_identity one_ne_zero (eq_clmul_xor_iff.mpr (by simp)) (by decide)

theorem pdivrem_self {b : Nat} (hb : b ≠ 0) : pdivrem b b = (1, 0) :=
  pdivrem_eq_of_identity hb (eq_clmul_xor_iff.mpr (by simp)) (deg_zero_lt hb)

/-! ### The widths of the results -/

theorem deg_toNat (x : Nat) : (deg x).toNat = bitLen x - 1 := by
  rw [deg_eq_bitLen]
  omega

theorem two_pow_deg_le {b : Nat} (hb : b ≠ 0) : 2 ^ (deg b).toNat ≤ b := by
  have hpos := bitLen_pos hb
  rw [deg_toNat]
  exact lt_bitLen_iff.mp (by omega)

theorem pdivrem_snd_lt_two_pow_deg (a : Nat) {b : Nat} (hb : b ≠ 0) : (pdivrem a b).2 < 2 ^ (deg b).toNat := by
  have hlt := bitLen_pdivrem_snd_lt a hb
  rw [deg_toNat]
  exact bitLen_le_iff.mp (by omega)

/-- The quotient is that of the polynomials. -/
theorem toPoly_pdivrem_fst (a : Nat) {b : Nat} (hb : b ≠ 0) : toPoly (pdivrem a b).1 = toPoly a /ₘ toPoly b := by
  refine (div_modByMonic_unique _ (toPoly (pdivrem a b).2) (toPoly_monic hb) ⟨?_, ?_⟩).1.symm
  · rw [add_comm, mul_comm, toPoly_pdivrem a hb]
  · exact (toPoly_degree_lt_degree hb).mpr (deg_pdivrem_snd_lt a hb)

theorem deg_eq_natDegree {x : Nat} (h : x ≠ 0) : deg x = (toPoly x).natDegree := by
  have hpos := bitLen_pos h
  rw [deg_eq_bitLen, toPoly_natDegree h]
  omega

/-- A quotient other than 0 needs `deg(b) <= deg(a)`, and then the degrees subtract (43_long_division.md R143). -/
theorem deg_pdivrem_fst {a b : Nat} (hb : b ≠ 0) (hq : (pdivrem a b).1 ≠ 0) :
    deg (pdivrem a b).1 = deg a - deg b := by
  have hle : deg b ≤ deg a := by
    by_contra hlt
    exact hq (by rw [pdivrem_of_deg_lt (not_le.mp hlt)])
  have ha : a ≠ 0 := by
    rintro rfl
    exact absurd hle (not_le.mpr (deg_zero_lt hb))
  rw [deg_eq_natDegree hb, deg_eq_natDegree ha] at hle ⊢
  rw [deg_eq_natDegree hq, toPoly_pdivrem_fst a hb, natDegree_divByMonic _ (toPoly_monic hb)]
  omega

theorem lt_of_deg_lt {x y : Nat} (h : deg x < deg y) : x < y := by
  by_contra hle
  have hlen := bitLen_le_iff.mpr ((not_lt.mp hle).trans_lt (lt_two_pow_bitLen x))
  exact absurd (deg_lt_deg_iff.mp h) (not_lt.mpr hlen)

/-- Dividing by a polynomial of degree 0 gives the dividend; by any other, the degree drops. -/
theorem pdivrem_fst_le (a : Nat) {b : Nat} (hb : b ≠ 0) : (pdivrem a b).1 ≤ a := by
  by_cases hq : (pdivrem a b).1 = 0
  · rw [hq]
    exact Nat.zero_le a
  by_cases hone : b = 1
  · rw [hone, pdivrem_one]
  · have hdeg := deg_pdivrem_fst hb hq
    have hlen := two_le_bitLen hb hone
    refine (lt_of_deg_lt ?_).le
    rw [hdeg, deg_eq_bitLen b]
    omega

/-- Settles O23. -/
theorem divisionWidthBounds : Obligations.DivisionWidthBounds := by
  intro cfg a b ha hb hb0
  refine ⟨pdivrem_snd_lt_two_pow_deg a hb0, two_pow_deg_le hb0, ?_, pdivrem_fst_le a hb0, pdivrem_fst_lt hb0 ha,
    pdivrem_snd_lt hb0 hb⟩
  have hnonneg := deg_nonneg hb0
  exact or_iff_not_imp_left.mpr fun hq => ⟨deg_pdivrem_fst hb0 hq, by omega⟩

/-! ### The command -/

/-- What DIVREM answers: its one check is on the divisor (43_long_division.md R141). -/
theorem exec_divrem {s : State} {c : Snapshot} (hc : s.inflight = some c) (hf : c.Inv s.cfg) :
    exec .divrem s = .next
      (if c.b = 0 then s.failed .divisionByZero else s.succeeded (pdivrem c.a c.b).1 (pdivrem c.a c.b).2) := by
  rw [exec_of_fits (i := .divrem) hc (divremCmd_fits hf)]
  simp only [commandOf, divremCmd, apply_ite s.completeExactly]
  rfl

theorem exec_divrem_of_pdivrem {s : State} {c : Snapshot} {q r : Nat} (hc : s.inflight = some c) (hf : c.Inv s.cfg)
    (hb : c.b ≠ 0) (h : pdivrem c.a c.b = (q, r)) : exec .divrem s = .next (s.succeeded q r) := by
  rw [exec_divrem hc hf, if_neg hb, h]

/-- Settles O21: each corner case is one of the pair of long division, and 0 has the least degree. -/
theorem divremChecksAndResult : Obligations.DivremChecksAndResult := by
  intro s c hc hf
  refine ⟨exec_divrem hc hf, engineStep_of_encode (i := .divrem) hc, fun hb => ⟨fun h => ?_, fun h => ?_, fun h => ?_,
    fun h => ?_⟩⟩
  · exact exec_divrem_of_pdivrem hc hf hb (by rw [h, pdivrem_of_deg_lt (deg_zero_lt hb)])
  · exact exec_divrem_of_pdivrem hc hf hb (by rw [h, pdivrem_one])
  · exact exec_divrem_of_pdivrem hc hf hb (by rw [h, pdivrem_self hb])
  · exact exec_divrem_of_pdivrem hc hf hb (pdivrem_of_deg_lt h)

end Sys2Proof.Machine
end

section
/-! PROOFS. The statements of 44_modulo_reduce.md: the reduction loop and its iterations, the reduction's laws, and MOD with its
check and corner cases. -/

namespace Sys2Proof.Machine

/-! ### The laws of the reduction -/

theorem pmod_xor {p : Nat} (hp : p ≠ 0) (x y : Nat) : pmod p (x ^^^ y) = pmod p x ^^^ pmod p y := by
  refine toPoly_injective ?_
  rw [toPoly_pmod hp, toPoly_xor, toPoly_xor, toPoly_pmod hp, toPoly_pmod hp, Polynomial.add_modByMonic]

/-- The reduction is 0 exactly on the multiples of `p`. -/
theorem pmod_eq_zero_iff {p x : Nat} (hp : p ≠ 0) : pmod p x = 0 ↔ PolyDvd p x := by
  rw [← toPoly_eq_zero, toPoly_pmod hp, Polynomial.modByMonic_eq_zero_iff_dvd (toPoly_monic hp), polyDvd_iff]

theorem pmod_clmul {p : Nat} (hp : p ≠ 0) (q : Nat) : pmod p (clmul q p) = 0 := by
  rw [pmod_eq_zero_iff hp, polyDvd_iff, toPoly_clmul]
  exact dvd_mul_left _ _

theorem pmod_self {p : Nat} (hp : p ≠ 0) : pmod p p = 0 :=
  (pmod_eq_zero_iff hp).mpr (polyDvd_iff.mpr dvd_rfl)

theorem deg_pmod_lt {p : Nat} (hp : p ≠ 0) (x : Nat) : deg (pmod p x) < deg p :=
  deg_lt_deg_iff.mpr (bitLen_pmod_lt hp x)

theorem pmodLoop_of_deg_lt {p x : Nat} (h : deg x < deg p) (n : Nat) : pmodLoop p n x = x := by
  cases n with
  | zero => rfl
  | succ n => rw [pmodLoop, if_neg (not_le.mpr h)]

theorem pmod_of_deg_lt {p x : Nat} (h : deg x < deg p) : pmod p x = x :=
  pmodLoop_of_deg_lt h _

theorem pmod_pmod {p : Nat} (hp : p ≠ 0) (x : Nat) : pmod p (pmod p x) = pmod p x :=
  pmod_of_deg_lt (deg_pmod_lt hp x)

/-- The reduction takes a multiple of `p` out. -/
theorem polyDvd_xor_pmod {p : Nat} (hp : p ≠ 0) (x : Nat) : PolyDvd p (x ^^^ pmod p x) := by
  rw [← pmod_eq_zero_iff hp, pmod_xor hp, pmod_pmod hp, Nat.xor_self]

/-! ### The loop -/

/-- The XOR of an iteration does not change the result: a shifted `p` is a multiple of `p` (44_modulo_reduce.md R150). -/
theorem pmod_xor_shiftLeft {p : Nat} (hp : p ≠ 0) (x k : Nat) : pmod p (x ^^^ p <<< k) = pmod p x := by
  have hshift : pmod p (p <<< k) = 0 := by
    rw [pmod_eq_zero_iff hp, polyDvd_iff, toPoly_shiftLeft]
    exact dvd_mul_right _ _
  rw [pmod_xor hp, hshift, Nat.xor_zero]

/-- The loop's recursion without its bound (44_modulo_reduce.md R150). -/
theorem pmod_unroll {p : Nat} (hp : p ≠ 0) (x : Nat) :
    pmod p x = if deg p ≤ deg x then pmod p (x ^^^ p <<< (deg x - deg p).toNat) else x := by
  split
  · rw [pmod_xor_shiftLeft hp]
  · rename_i hlt
    exact pmod_of_deg_lt (not_le.mp hlt)

/-- The degree drops in every iteration, so `deg(x) - deg(p) + 1` of them reach the loop's end (44_modulo_reduce.md R150). -/
theorem pmodLoop_eq_pmod_of_deg_sub_lt {p n x : Nat} (hp : p ≠ 0) (hn : deg x - deg p < n) : pmodLoop p n x = pmod p x := by
  induction n generalizing x with
  | zero =>
    have hlt : deg x < deg p := by simpa using hn
    exact (pmod_of_deg_lt hlt).symm
  | succ n ih =>
    rcases lt_or_ge (deg x) (deg p) with hlt | hle
    · rw [pmodLoop_of_deg_lt hlt, pmod_of_deg_lt hlt]
    · have hdrop := deg_cancel_lt hp hle
      rw [pmodLoop, if_pos hle, ih (by omega), pmod_xor_shiftLeft hp]

/-- Reducing both sides of the division identity leaves the remainder. -/
theorem pmod_eq_pdivrem_snd {p : Nat} (hp : p ≠ 0) (x : Nat) : pmod p x = (pdivrem x p).2 := by
  obtain ⟨hid, hlt, _⟩ := divisionIdentity x p hp
  calc pmod p x = pmod p (clmul (pdivrem x p).1 p ^^^ (pdivrem x p).2) := congrArg (pmod p) hid
    _ = (pdivrem x p).2 := by rw [pmod_xor hp, pmod_clmul hp, pmod_of_deg_lt hlt, Nat.zero_xor]

/-- Settles O27. -/
theorem reductionLoop : Obligations.ReductionLoop :=
  fun _ x hp => ⟨pmod_unroll hp x, deg_cancel_lt hp, deg_pmod_lt hp x, pmodLoop_eq_pmod_of_deg_sub_lt hp (by omega),
    pmod_eq_pdivrem_snd hp x⟩

/-! ### The command -/

/-- What MOD answers: its one check is on the field (44_modulo_reduce.md R151). -/
theorem exec_mod {s : State} {c : Snapshot} (hc : s.inflight = some c) :
    exec .mod s = .next
      (if ¬ (1 ≤ c.m.toNat ∧ c.m.toNat ≤ s.cfg.mMax ∧ deg c.p = c.m.toNat) then s.failed .badField
       else s.succeeded (pmod c.p c.a) 0) := by
  rw [exec_of_fits (i := .mod) hc (modCmd_fits s.cfg c)]
  simp only [commandOf, modCmd, fieldOk_iff, apply_ite s.completeExactly, ite_not]
  rfl

theorem exec_mod_of_fieldLoaded {s : State} {c : Snapshot} (hc : s.inflight = some c) (hf : c.FieldLoaded s.cfg) :
    exec .mod s = .next (s.succeeded (pmod c.p c.a) 0) := by
  rw [Snapshot.FieldLoaded] at hf
  rw [exec_mod hc, if_neg (not_not_intro hf)]

/-- Settles O25: each corner case is one of the reduction by a polynomial of degree `m`. -/
theorem modChecksAndResult : Obligations.ModChecksAndResult := by
  intro s c hc
  refine ⟨exec_mod hc, engineStep_of_encode (i := .mod) hc, fun hf => ?_⟩
  have ⟨_, _, hm⟩ := hf
  rw [exec_mod_of_fieldLoaded hc hf]
  refine ⟨fun hx => ?_, fun hx => ?_, fun hx => ?_⟩
  · rw [pmod_of_deg_lt (hm ▸ deg_lt_iff.mpr hx)]
  · rw [hx, pmod_self (ne_zero_of_deg hm)]
  · rw [hx, pmod_two_pow_degree hm]

/-- Settles O26: the reduction is the element, below `2^m` because `deg(p) = m`. -/
theorem modCompletesWithRemainder : Obligations.ModCompletesWithRemainder := by
  intro s c hc hf
  have ⟨_, _, hm⟩ := hf
  exact ⟨_, exec_mod_of_fieldLoaded hc hf, pmod_lt hm c.a, polyDvd_xor_pmod (ne_zero_of_deg hm) c.a⟩

/-- A MOD that succeeds had a field loaded (44_modulo_reduce.md R151). -/
theorem fieldLoaded_of_exec_mod {s t : State} {c : Snapshot} (hc : s.inflight = some c) (h : exec .mod s = .next t)
    (ht : t.status.err = .none) : c.FieldLoaded s.cfg := by
  by_contra hf
  rw [exec_of_not_fieldLoaded hc hf (by decide)] at h
  cases h
  simp at ht

/-- Settles O28: a successful MOD had a field loaded, so its result is a remainder modulo a polynomial of degree `m`. -/
theorem reductionLaws : Obligations.ReductionLaws := by
  refine ⟨fun s t c hc h ht => ?_, fun p x y q hp =>
    ⟨pmod_pmod hp x, pmod_xor hp x y, pmod_of_deg_lt, pmod_clmul hp q⟩⟩
  have hf := fieldLoaded_of_exec_mod hc h ht
  have ⟨_, hmax, hm⟩ := hf
  rw [exec_mod_of_fieldLoaded hc hf] at h
  cases h
  have hlt : pmod c.p c.a < 2 ^ c.m.toNat := pmod_lt hm c.a
  exact ⟨hlt, fits_of_lt hmax hlt⟩

end Sys2Proof.Machine
end

section
/-! PROOFS. The statements of 45_invert_divide.md: the inversion loop's invariant, its end and its widths, which operands have
an inverse, and INV and DIV with their checks and corner cases. -/

namespace Sys2Proof.Machine

/-! ### The pairs after a number of iterations -/

/-- The pairs after `n` iterations from `t`, the two tests left out (45_invert_divide.md R160). -/
def InvPairs.after (n : Nat) (t : InvPairs) : InvPairs := (fun x : InvPairs => x.align.cancel)^[n] t

/-- The loop ends at the top of an iteration that meets one of these (45_invert_divide.md R160). -/
def InvPairs.Ended (t : InvPairs) : Prop := t.u = 1 ∨ t.v = 0

/-- The polynomial `d` divides both `u` and `v`. -/
def InvPairs.CommonDvd (d : Nat) (t : InvPairs) : Prop := PolyDvd d t.u ∧ PolyDvd d t.v

/-- Both `u` and `v` are below `2^k`. -/
def InvPairs.Below (k : Nat) (t : InvPairs) : Prop := t.u < 2 ^ k ∧ t.v < 2 ^ k

theorem InvPairs.Tracks.after {p a : Nat} {t : InvPairs} (h : t.Tracks p a) (n : Nat) : (t.after n).Tracks p a :=
  Function.Iterate.rec (InvPairs.Tracks p a) h (fun _ hx => hx.align.cancel) n

theorem InvPairs.commonDvd_align (d : Nat) (t : InvPairs) : t.align.CommonDvd d ↔ t.CommonDvd d := by
  rcases t.align_cases with ⟨_, he⟩ | ⟨_, he⟩ <;> rw [he]
  exact and_comm

/-- The XOR of an iteration adds a multiple of `v` to `u`. -/
theorem InvPairs.commonDvd_cancel (d : Nat) (t : InvPairs) : t.cancel.CommonDvd d ↔ t.CommonDvd d := by
  simp only [InvPairs.CommonDvd, InvPairs.cancel, polyDvd_iff, toPoly_xor, toPoly_shiftLeft]
  exact and_congr_left fun hv => dvd_add_left (hv.mul_right _)

/-- The loop keeps the common divisors of its pair, as Euclid's algorithm does. -/
theorem InvPairs.commonDvd_after (d n : Nat) (t : InvPairs) : (t.after n).CommonDvd d ↔ t.CommonDvd d :=
  Function.Iterate.rec (fun x : InvPairs => x.CommonDvd d ↔ t.CommonDvd d) Iff.rfl
    (fun x hx => (x.align.commonDvd_cancel d).trans ((x.commonDvd_align d).trans hx)) n

theorem InvPairs.Below.align {k : Nat} {t : InvPairs} (h : t.Below k) : t.align.Below k := by
  rcases t.align_cases with ⟨_, he⟩ | ⟨_, he⟩ <;> rw [he]
  · exact h
  · exact h.symm

theorem InvPairs.bitLen_align_v_le (t : InvPairs) : bitLen t.align.v ≤ bitLen t.align.u := by
  rcases t.align_cases with ⟨hle, he⟩ | ⟨hlt, he⟩ <;> rw [he]
  · exact hle
  · exact hlt.le

/-- The XOR of an iteration sets no bit above the top bit of `u` (45_invert_divide.md R163). -/
theorem InvPairs.bitLen_cancel_u_le {t : InvPairs} (h : bitLen t.v ≤ bitLen t.u) : bitLen t.cancel.u ≤ bitLen t.u := by
  by_cases hv : t.v = 0
  · simp [InvPairs.cancel, hv]
  · simpa only [InvPairs.cancel, deg_sub_toNat] using (bitLen_cancel_lt hv h).le

theorem InvPairs.Below.after {k : Nat} {t : InvPairs} (h : t.Below k) (n : Nat) : (t.after n).Below k := by
  refine Function.Iterate.rec (InvPairs.Below k) h (fun x hx => ?_) n
  obtain ⟨hu, hv⟩ := hx.align
  exact ⟨bitLen_le_iff.mp (le_trans (InvPairs.bitLen_cancel_u_le x.bitLen_align_v_le) (bitLen_le_iff.mpr hu)), hv⟩

/-- The rank bounds the iterations, the ending test included (45_invert_divide.md R163). -/
theorem InvPairs.exists_ended (t : InvPairs) (hv1 : t.v ≠ 1) : ∃ n, n + 1 ≤ t.rank ∧ (t.after n).Ended := by
  by_cases hu : t.u = 1
  · exact ⟨0, t.rank_pos hv1, .inl hu⟩
  by_cases hv : t.v = 0
  · exact ⟨0, t.rank_pos hv1, .inr hv⟩
  have hdrop := t.rank_step_lt hu hv hv1
  obtain ⟨n, hn, hend⟩ := exists_ended t.align.cancel (t.step_v_ne_one hu hv1)
  exact ⟨n + 1, by omega, hend⟩
termination_by t.rank

/-! ### The loop's invariant and its bounds -/

/-- Two values with the same remainder differ by a multiple of `p`. -/
theorem pmod_eq_of_dvd_sub {p x y : Nat} (hp : p ≠ 0) (h : toPoly p ∣ toPoly x - toPoly y) : pmod p x = pmod p y := by
  refine toPoly_injective ?_
  rw [toPoly_pmod hp, toPoly_pmod hp, Polynomial.modByMonic_eq_of_dvd_sub (toPoly_monic hp) h]

/-- Reducing a factor first does not change the reduced carry-less product. -/
theorem pmod_clmul_pmod {p : Nat} (hp : p ≠ 0) (x y : Nat) : pmod p (clmul (pmod p x) y) = pmod p (clmul x y) := by
  refine toPoly_injective ?_
  simp only [toPoly_pmod hp, toPoly_clmul, modByMonic_mul_modByMonic (toPoly_monic hp)]

/-- Settles O30: an equation modulo `p` is a multiple of `p` in the tracked difference. -/
theorem inversionLoopInvariant : Obligations.InversionLoopInvariant := by
  intro p a n t hdeg ht
  have hp : p ≠ 0 := by rintro rfl; exact absurd hdeg (by decide)
  obtain ⟨hfst, hsnd⟩ : t.Tracks p a := ht ▸ (InvPairs.Tracks.start p a).after n
  have hu : pmod p (clmul t.g1 a) = pmod p t.u := pmod_eq_of_dvd_sub hp (by rwa [toPoly_clmul])
  have hv : pmod p (clmul t.g2 a) = pmod p t.v := pmod_eq_of_dvd_sub hp (by rwa [toPoly_clmul])
  have hone : deg 1 < deg p := (by decide : deg 1 < 1).trans_le hdeg
  refine ⟨hu, hv, fun h => ?_⟩
  rw [pmod_clmul_pmod hp, hu, h, pmod_of_deg_lt hone]

/-- The rank at the start is the bound of 45_invert_divide.md R163. -/
theorem InvPairs.rank_start {m p a : Nat} (hm : deg p = m) (ha : a ≠ 0) :
    InvPairs.rank { u := a, v := p, g1 := 1, g2 := 0 } = (deg a + m + 1).toNat := by
  have hpos := bitLen_pos ha
  have hlen := bitLen_of_deg hm
  simp only [InvPairs.rank, if_neg ha, if_neg (ne_zero_of_deg hm), deg_eq_bitLen a]
  omega

/-- Settles O31: the rank drops in every iteration, and no iteration raises the longer of the two degrees. -/
theorem inversionEndsWithinBound : Obligations.InversionEndsWithinBound := by
  intro m p a h1 hm ha hlt
  have hp1 := ne_one_of_deg hm h1
  have hrank := InvPairs.rank_start hm ha
  have hstart : InvPairs.Below (m + 1) { u := a, v := p, g1 := 1, g2 := 0 } :=
    ⟨hlt.trans (Nat.pow_lt_pow_right (by decide) (by omega)), bitLen_le_iff.mp (bitLen_of_deg hm).le⟩
  rw [← hrank]
  refine ⟨?_, InvPairs.exists_ended _ hp1, fun n hn => gfInvLoop_of_rank_le n _ hp1 hn, hstart.after,
    fun x hx => (gfInv_some hm h1 hx).1⟩
  have hdeg := deg_lt_iff.mpr hlt
  omega

/-! ### Which operands have an inverse -/

/-- A product of 1 is a combination of the operand and `p` that gives 1. -/
theorem coprime_of_gfMul_eq_one {m p a x : Nat} (hm : deg p = m) (ha : a < 2 ^ m) (hx : x < 2 ^ m)
    (h : gfMul m p a x = 1) : Coprime a p := by
  have hprod := toPoly_gfMul hm ha hx
  rw [h, toPoly_one] at hprod
  refine coprime_iff.mpr ⟨toPoly x, -((toPoly a * toPoly x) /ₘ toPoly p), ?_⟩
  linear_combination -Polynomial.modByMonic_add_div (toPoly a * toPoly x) (toPoly p) - hprod

theorem gfInv_eq_none_iff {m p a : Nat} (h1 : 1 ≤ m) (hm : deg p = m) : gfInv p a = none ↔ ¬ Coprime a p := by
  rw [coprime_iff]
  refine ⟨gfInv_none hm h1, fun h => ?_⟩
  rw [Option.eq_none_iff_forall_not_mem]
  exact fun x hx => h (gfInv_some hm h1 hx).2.1

theorem exists_gfInv_of_coprime {m p a : Nat} (h1 : 1 ≤ m) (hm : deg p = m) (h : Coprime a p) : ∃ x, gfInv p a = some x :=
  Option.ne_none_iff_exists'.mp fun hnone => (gfInv_eq_none_iff h1 hm).mp hnone h

theorem gfInv_lt {m p a x : Nat} (h1 : 1 ≤ m) (hm : deg p = m) (h : gfInv p a = some x) : x < 2 ^ m :=
  (gfInv_some hm h1 h).1

theorem gfMul_gfInv {m p a x : Nat} (h1 : 1 ≤ m) (hm : deg p = m) (ha : a < 2 ^ m) (h : gfInv p a = some x) :
    gfMul m p a x = 1 := by
  obtain ⟨hx, _, hdvd⟩ := gfInv_some hm h1 h
  have hone : 1 < 2 ^ m := Nat.one_lt_two_pow (by omega)
  refine toPoly_injective ?_
  rw [toPoly_gfMul hm ha hx, mul_comm, ← toPoly_modByMonic_of_lt hm hone]
  exact Polynomial.modByMonic_eq_of_dvd_sub (toPoly_monic (ne_zero_of_deg hm)) (by rwa [toPoly_one])

/-- Dividing by `b` undoes multiplying by it (45_invert_divide.md R167). -/
theorem gfMul_gfMul_cancel {m p a b x : Nat} (h1 : 1 ≤ m) (hm : deg p = m) (ha : a < 2 ^ m) (hb : b < 2 ^ m)
    (hx : x < 2 ^ m) (h : gfMul m p b x = 1) : gfMul m p (gfMul m p a x) b = a := by
  rw [gfMul_assoc hm ha hx hb, gfMul_comm hm hx hb, h, gfMul_one h1 hm ha]

theorem one_gfMul {m p a : Nat} (h1 : 1 ≤ m) (hm : deg p = m) (ha : a < 2 ^ m) : gfMul m p 1 a = a := by
  rw [gfMul_comm hm (Nat.one_lt_two_pow (by omega)) ha, gfMul_one h1 hm ha]

/-- Two inverses of one element are equal: `y = y(ax) = (ya)x = x`. -/
theorem eq_of_gfMul_eq_one {m p a x y : Nat} (h1 : 1 ≤ m) (hm : deg p = m) (ha : a < 2 ^ m) (hx : x < 2 ^ m)
    (hy : y < 2 ^ m) (hax : gfMul m p a x = 1) (hay : gfMul m p a y = 1) : y = x := by
  calc y = gfMul m p (gfMul m p y x) a := (gfMul_gfMul_cancel h1 hm hy ha hx hax).symm
    _ = gfMul m p (gfMul m p x y) a := by rw [gfMul_comm hm hy hx]
    _ = x := gfMul_gfMul_cancel h1 hm hx ha hy hay

/-- `gf_inv` returns the inverse, and nothing else (45_invert_divide.md R164). -/
theorem gfInv_eq_some_iff {m p a x : Nat} (h1 : 1 ≤ m) (hm : deg p = m) (ha : a < 2 ^ m) :
    gfInv p a = some x ↔ x < 2 ^ m ∧ gfMul m p a x = 1 := by
  refine ⟨fun h => ⟨gfInv_lt h1 hm h, gfMul_gfInv h1 hm ha h⟩, fun ⟨hx, hax⟩ => ?_⟩
  obtain ⟨y, hy⟩ := exists_gfInv_of_coprime h1 hm (coprime_of_gfMul_eq_one hm ha hx hax)
  rw [hy, eq_of_gfMul_eq_one h1 hm ha hx (gfInv_lt h1 hm hy) hax (gfMul_gfInv h1 hm ha hy)]

theorem gfInv_one {m p : Nat} (h1 : 1 ≤ m) (hm : deg p = m) : gfInv p 1 = some 1 := by
  have hone : 1 < 2 ^ m := Nat.one_lt_two_pow (by omega)
  exact (gfInv_eq_some_iff h1 hm hone).mpr ⟨hone, gfMul_one h1 hm hone⟩

/-- An irreducible `p` divides no nonzero value of smaller degree, and has no other factor to share. -/
theorem coprime_of_irred {m p a : Nat} (hm : deg p = m) (hirr : Irred p) (ha0 : a ≠ 0) (ha : a < 2 ^ m) : Coprime a p := by
  intro d hda hdp
  refine (hirr.2 d hdp).resolve_right ?_
  rintro rfl
  have hzero := (pmod_eq_zero_iff (ne_zero_of_deg hm)).mpr hda
  rw [pmod_of_deg_lt (hm ▸ deg_lt_iff.mpr ha)] at hzero
  exact ha0 hzero

/-- A factor of `p` other than `p` itself has a smaller degree. -/
theorem lt_two_pow_of_polyDvd {m p d : Nat} (hm : deg p = m) (hd : PolyDvd d p) (hne : d ≠ p) : d < 2 ^ m := by
  have hp := ne_zero_of_deg hm
  have hdvd := polyDvd_iff.mp hd
  have hd0 : d ≠ 0 := by
    rintro rfl
    exact hp (by simpa using hdvd)
  by_contra hge
  have hlen := lt_bitLen_iff.mpr (not_lt.mp hge)
  refine hne (toPoly_injective (Polynomial.eq_of_monic_of_dvd_of_natDegree_le (toPoly_monic hd0) (toPoly_monic hp) hdvd
    ?_).symm)
  rw [toPoly_natDegree hp, toPoly_natDegree hd0, bitLen_of_deg hm]
  omega

theorem exists_factor_of_not_irred {p : Nat} (h1 : 1 ≤ deg p) (h : ¬ Irred p) : ∃ d, PolyDvd d p ∧ d ≠ 1 ∧ d ≠ p := by
  by_contra hc
  push Not at hc
  exact h ⟨h1, fun d hd => or_iff_not_imp_left.mpr (hc d hd)⟩

theorem polyDvd_refl (d : Nat) : PolyDvd d d :=
  polyDvd_iff.mpr dvd_rfl

theorem polyDvd_zero (d : Nat) : PolyDvd d 0 :=
  polyDvd_iff.mpr (by simp)

/-- A factor of `p` other than 1 has no inverse. -/
theorem gfInv_of_polyDvd {m p d : Nat} (h1 : 1 ≤ m) (hm : deg p = m) (hd : PolyDvd d p) (hne : d ≠ 1) : gfInv p d = none :=
  (gfInv_eq_none_iff h1 hm).mpr fun h => hne (h d (polyDvd_refl d) hd)

/-- Some operand below `2^m` has no inverse when `p` is reducible: a proper factor of `p` (45_invert_divide.md R164). -/
theorem exists_gfInv_none_of_not_irred {m p : Nat} (h1 : 1 ≤ m) (hm : deg p = m) (h : ¬ Irred p) :
    ∃ a, a ≠ 0 ∧ a < 2 ^ m ∧ gfInv p a = none := by
  obtain ⟨d, hd, hd1, hdp⟩ := exists_factor_of_not_irred (by omega) h
  refine ⟨d, ?_, lt_two_pow_of_polyDvd hm hd hdp, gfInv_of_polyDvd h1 hm hd hd1⟩
  rintro rfl
  exact ne_zero_of_deg hm (by simpa using polyDvd_iff.mp hd)

/-- On an operand that shares a factor with `p` the loop comes to `v = 0` with the greatest common divisor in `u`
(45_invert_divide.md R164). -/
theorem exists_after_gcd {m p a : Nat} (h1 : 1 ≤ m) (hm : deg p = m) (h : ¬ Coprime a p) :
    ∃ (n : Nat) (t : InvPairs), t = InvPairs.after n { u := a, v := p, g1 := 1, g2 := 0 } ∧ t.v = 0 ∧ PolyDvd t.u a ∧
      PolyDvd t.u p ∧ ∀ d, PolyDvd d a → PolyDvd d p → PolyDvd d t.u := by
  obtain ⟨n, _, hend⟩ := InvPairs.exists_ended { u := a, v := p, g1 := 1, g2 := 0 } (ne_one_of_deg hm h1)
  refine ⟨n, _, rfl, ?_⟩
  have hcommon := fun d => InvPairs.commonDvd_after d n { u := a, v := p, g1 := 1, g2 := 0 }
  generalize InvPairs.after n { u := a, v := p, g1 := 1, g2 := 0 } = t at hend hcommon ⊢
  have hgreatest : ∀ d, PolyDvd d a → PolyDvd d p → PolyDvd d t.u := fun d hda hdp => ((hcommon d).mpr ⟨hda, hdp⟩).1
  have hv : t.v = 0 := by
    refine hend.resolve_left fun hu => h fun d hda hdp => ?_
    have hd := polyDvd_iff.mp (hgreatest d hda hdp)
    rw [hu, toPoly_one] at hd
    exact toPoly_isUnit.mp (isUnit_of_dvd_one hd)
  obtain ⟨hua, hup⟩ := (hcommon t.u).mp ⟨polyDvd_refl _, hv ▸ polyDvd_zero _⟩
  exact ⟨hv, hua, hup, hgreatest⟩

/-- Settles O32: inverses are unique, and the loop keeps the common divisors of `a` and `p`. -/
theorem inverseExistsExactlyWhenCoprime : Obligations.InverseExistsExactlyWhenCoprime := by
  refine ⟨fun m p a h1 hm ha0 ha => ⟨fun hcop => ?_, fun hcop => ?_, fun hirr hnone => ?_⟩,
    fun m p h1 hm hirr => exists_gfInv_none_of_not_irred h1 hm hirr, fun m h2 => ?_⟩
  · obtain ⟨b, hb⟩ := exists_gfInv_of_coprime h1 hm hcop
    obtain ⟨hlt, hab⟩ := (gfInv_eq_some_iff h1 hm ha).mp hb
    exact ⟨b, hb, hlt, hab, fun b' hlt' hab' => eq_of_gfMul_eq_one h1 hm ha hlt hlt' hab hab'⟩
  · exact ⟨(gfInv_eq_none_iff h1 hm).mpr hcop, exists_after_gcd h1 hm hcop⟩
  · exact (gfInv_eq_none_iff h1 hm).mp hnone (coprime_of_irred hm hirr ha0 ha)
  · have h1 : 1 ≤ m := by omega
    exact gfInv_of_polyDvd h1 (deg_registryDefault m) (three_polyDvd_registryDefault h1) (by decide)

/-! ### INV -/

/-- What INV answers, its checks in order (45_invert_divide.md R161). -/
theorem exec_inv {s : State} {c : Snapshot} (hc : s.inflight = some c) :
    exec .inv s = .next
      (if ¬ (1 ≤ c.m.toNat ∧ c.m.toNat ≤ s.cfg.mMax ∧ deg c.p = c.m.toNat) then s.failed .badField
       else if ¬ c.a < 2 ^ c.m.toNat then s.failed .operandRange
       else if c.a = 0 then s.failed .zeroHasNoInverse
       else match gfInv c.p c.a with
         | some x => s.succeeded x 0
         | none => s.failed .noInverseExists) := by
  rw [exec_of_fits (i := .inv) hc (invCmd_fits s.cfg c)]
  simp only [commandOf, invCmd, fieldOk_iff, inRange_iff, apply_ite s.completeExactly, ite_not]
  cases gfInv c.p c.a <;> rfl

section
variable {s : State} {c : Snapshot} (hc : s.inflight = some c) (hf : c.FieldLoaded s.cfg)
include hc hf

theorem exec_inv_zero (ha : c.a = 0) : exec .inv s = .next (s.failed .zeroHasNoInverse) := by
  rw [Snapshot.FieldLoaded] at hf
  rw [exec_inv hc, if_neg (not_not_intro hf), if_neg (by simp [ha]), if_pos ha]

theorem exec_inv_of_some {x : Nat} (ha : c.a < 2 ^ c.m.toNat) (ha0 : c.a ≠ 0) (hx : gfInv c.p c.a = some x) :
    exec .inv s = .next (s.succeeded x 0) := by
  rw [Snapshot.FieldLoaded] at hf
  rw [exec_inv hc, if_neg (not_not_intro hf), if_neg (not_not_intro ha), if_neg ha0, hx]

theorem exec_inv_of_none (ha : c.a < 2 ^ c.m.toNat) (ha0 : c.a ≠ 0) (hx : gfInv c.p c.a = none) :
    exec .inv s = .next (s.failed .noInverseExists) := by
  rw [Snapshot.FieldLoaded] at hf
  rw [exec_inv hc, if_neg (not_not_intro hf), if_neg (not_not_intro ha), if_neg ha0, hx]

end

/-- Settles O29: each corner case is one of `gf_inv`. -/
theorem invChecksAndResult : Obligations.InvChecksAndResult := by
  intro s c hc
  refine ⟨exec_inv hc, engineStep_of_encode (i := .inv) hc, fun hf ha => ?_⟩
  have ⟨h1, _, hm⟩ := hf
  refine ⟨fun hone => ?_, fun ha0 hcop => ?_, fun ha0 hirr => ?_⟩
  · exact exec_inv_of_some hc hf ha (by omega) (hone ▸ gfInv_one h1 hm)
  · exact exec_inv_of_none hc hf ha ha0 ((gfInv_eq_none_iff h1 hm).mpr hcop)
  · obtain ⟨x, hx⟩ := exists_gfInv_of_coprime h1 hm (coprime_of_irred hm hirr ha0 ha)
    exact ⟨x, exec_inv_of_some hc hf ha ha0 hx⟩

/-- Settles O33. -/
theorem invCompletesWithInverse : Obligations.InvCompletesWithInverse := by
  intro s c hc hf ha0 ha hcop
  have ⟨h1, _, hm⟩ := hf
  obtain ⟨x, hx⟩ := exists_gfInv_of_coprime h1 hm hcop
  obtain ⟨hlt, hax⟩ := (gfInv_eq_some_iff h1 hm ha).mp hx
  exact ⟨x, exec_inv_of_some hc hf ha ha0 hx, hlt, by rw [← gfMul_eq_pmod hm ha hlt, hax]⟩

/-! ### DIV -/

/-- What DIV answers, its checks in order (45_invert_divide.md R166). -/
theorem exec_div {s : State} {c : Snapshot} (hc : s.inflight = some c) :
    exec .div s = .next
      (if ¬ (1 ≤ c.m.toNat ∧ c.m.toNat ≤ s.cfg.mMax ∧ deg c.p = c.m.toNat) then s.failed .badField
       else if ¬ c.a < 2 ^ c.m.toNat then s.failed .operandRange
       else if ¬ c.b < 2 ^ c.m.toNat then s.failed .operandRange
       else if c.b = 0 then s.failed .divisionByZero
       else match gfInv c.p c.b with
         | some x => s.succeeded (gfMul c.m.toNat c.p c.a x) 0
         | none => s.failed .noInverseExists) := by
  rw [exec_of_fits (i := .div) hc (divCmd_fits s.cfg c)]
  simp only [commandOf, divCmd, gfDiv, fieldOk_iff, inRange_iff, apply_ite s.completeExactly, ite_not]
  cases gfInv c.p c.b <;> rfl

section
variable {s : State} {c : Snapshot} (hc : s.inflight = some c) (hf : c.FieldLoaded s.cfg)
  (ha : c.a < 2 ^ c.m.toNat) (hb : c.b < 2 ^ c.m.toNat) (hb0 : c.b ≠ 0)
include hc hf ha hb hb0

theorem exec_div_of_some {x : Nat} (hx : gfInv c.p c.b = some x) :
    exec .div s = .next (s.succeeded (gfMul c.m.toNat c.p c.a x) 0) := by
  rw [Snapshot.FieldLoaded] at hf
  rw [exec_div hc, if_neg (not_not_intro hf), if_neg (not_not_intro ha), if_neg (not_not_intro hb), if_neg hb0, hx]

theorem exec_div_of_none (hx : gfInv c.p c.b = none) : exec .div s = .next (s.failed .noInverseExists) := by
  rw [Snapshot.FieldLoaded] at hf
  rw [exec_div hc, if_neg (not_not_intro hf), if_neg (not_not_intro ha), if_neg (not_not_intro hb), if_neg hb0, hx]

end

/-- The error of INV on 0 is renamed in DIV (90_conflicts.md C6). -/
theorem divCmd_ne_zeroHasNoInverse (cfg : Config) (c : Snapshot) : divCmd cfg c ≠ .err .zeroHasNoInverse := by
  unfold divCmd
  (repeat' split) <;> simp

theorem exec_div_err_ne {s t : State} (h : exec .div s = .next t) : t.status.err ≠ .zeroHasNoInverse := by
  obtain ⟨c, _, rfl⟩ := exec_next h
  have hne := divCmd_ne_zeroHasNoInverse s.cfg c
  rcases s.complete_cases (divCmd s.cfg c) with ⟨r1, r2, _, he⟩ | ⟨e, hr, he⟩
  · simp [commandOf, he]
  · rw [hr] at hne
    simpa [commandOf, he] using hne

/-- Settles O34: each corner case is one of the product with the inverse of the divisor. -/
theorem divChecksAndResult : Obligations.DivChecksAndResult := by
  intro s c hc
  refine ⟨exec_div hc, engineStep_of_encode (i := .div) hc, fun t => exec_div_err_ne, fun hf ha hb hb0 => ?_⟩
  have ⟨h1, _, hm⟩ := hf
  refine ⟨fun hcop => ?_, fun hzero hcop => ?_, fun heq hcop => ?_, fun hone => ?_, fun hone x hx => ?_⟩
  · exact exec_div_of_none hc hf ha hb hb0 ((gfInv_eq_none_iff h1 hm).mpr hcop)
  · obtain ⟨x, hx⟩ := exists_gfInv_of_coprime h1 hm hcop
    rw [exec_div_of_some hc hf ha hb hb0 hx, gfMul_eq_zero hm ha (gfInv_lt h1 hm hx) (.inl hzero)]
  · obtain ⟨x, hx⟩ := exists_gfInv_of_coprime h1 hm hcop
    rw [exec_div_of_some hc hf ha hb hb0 hx, heq, gfMul_gfInv h1 hm hb hx]
  · have hx : gfInv c.p c.b = some 1 := hone ▸ gfInv_one h1 hm
    rw [exec_div_of_some hc hf ha hb hb0 hx, gfMul_one h1 hm ha]
  · rw [exec_div_of_some hc hf ha hb hb0 hx, hone, one_gfMul h1 hm (gfInv_lt h1 hm hx)]

/-- Settles O35: the divisor cancels against its inverse. -/
theorem divCompletesWithQuotient : Obligations.DivCompletesWithQuotient := by
  intro s c hc hf ha hb hb0 hcop
  have ⟨h1, _, hm⟩ := hf
  obtain ⟨x, hx⟩ := exists_gfInv_of_coprime h1 hm hcop
  obtain ⟨hlt, hbx⟩ := (gfInv_eq_some_iff h1 hm hb).mp hx
  exact ⟨_, exec_div_of_some hc hf ha hb hb0 hx, gfMul_lt x hm ha, gfMul_gfMul_cancel h1 hm ha hb hlt hbx⟩

theorem gfDiv_eq_map (m p a b : Nat) : gfDiv m p a b = (gfInv p b).map (fun x => gfMul m p a x) := by
  unfold gfDiv
  cases gfInv p b <;> rfl

/-- Settles O36: with an irreducible `p` every nonzero element is coprime to it. -/
theorem inversionAndDivisionLaws : Obligations.InversionAndDivisionLaws := by
  refine ⟨fun m p a h1 hm hirr ha0 ha => ?_, fun s c hc hf ha => exec_inv_zero hc hf ha,
    fun m p a b _ _ _ => gfDiv_eq_map m p a b, fun m p a b h1 hm hirr ha hb hb0 => ?_⟩
  · obtain ⟨x, hx⟩ := exists_gfInv_of_coprime h1 hm (coprime_of_irred hm hirr ha0 ha)
    exact ⟨x, hx, gfMul_gfInv h1 hm ha hx⟩
  · obtain ⟨x, hx⟩ := exists_gfInv_of_coprime h1 hm (coprime_of_irred hm hirr hb0 hb)
    obtain ⟨hlt, hbx⟩ := (gfInv_eq_some_iff h1 hm hb).mp hx
    exact ⟨gfMul m p a x, by rw [gfDiv_eq_map, hx, Option.map_some], gfMul_gfMul_cancel h1 hm ha hb hlt hbx⟩

end Sys2Proof.Machine
end

section
/-! PROOFS. The statements of 70_reset_and_hazards.md: the reset event, the commands before a field is loaded, and two command
words written with no wait between them. -/

namespace Sys2Proof.Machine

/-! ### The reset event -/

/-- A step in the turn of the reset event, with a command in flight or not. -/
theorem step_of_reset_turn {s : State} (h : nextTurn s = .reset) : step s = .next s.takeTurn.resetEvent := by
  simp only [step, h, runTurn]

theorem readWord_param (s : State) : readWord s 0x000C = paramWord s.cfg := rfl

/-- Settles O46: PARAM reads as a word of the parameters, which the event keeps. -/
theorem resetEventSetsEveryRegister : Obligations.ResetEventSetsEveryRegister := by
  intro s rest h
  refine ⟨_, step_of_reset_turn (nextTurn_of_schedule h), rfl, rfl, rfl, rfl, rfl, rfl, rfl, rfl, rfl, ?_⟩
  rw [readWord_param, readWord_param]
  rfl

/-! ### The commands before a field is loaded -/

theorem not_fieldLoaded_of_m_zero {cfg : Config} {c : Snapshot} (h : c.m = 0) : ¬ c.FieldLoaded cfg := by
  rintro ⟨h1, _, _⟩
  simp [h] at h1

/-- Settles O47: DIVREM's results are the pair of long division. -/
theorem fieldCommandsFailUntilFieldIsLoaded : Obligations.FieldCommandsFailUntilFieldIsLoaded := by
  rintro cfg a b p m s ha hb hp rfl
  refine ⟨rfl, rfl, fun hm _ w => not_fieldLoaded_of_m_zero hm,
    fun i hi hf => exec_of_not_fieldLoaded (State.accept_inflight _ _) hf hi, fun i hi => ?_, fun hb0 => ?_⟩
  · simp only [List.mem_cons, List.not_mem_nil, or_false] at hi
    rcases hi with rfl | rfl
    · exact exec_add (State.accept_inflight _ _) ha hb
    · rw [exec_sub]
      exact exec_add (State.accept_inflight _ _) ha hb
  · obtain ⟨hid, hdeg, _⟩ := divisionIdentity a b hb0
    exact ⟨_, _, exec_divrem_of_pdivrem (State.accept_inflight _ _) ⟨ha, hb, hp⟩ hb0 rfl, hid, hdeg⟩

/-! ### Two command words with no wait between them -/

/-- The engine's step leaves IF empty, so the next command word is accepted (40_command_cycle.md R100, R102). -/
theorem exists_idle_of_engineStep {s : State} {c : Snapshot} (h : s.inflight = some c) :
    ∃ t, engineStep s = .next t ∧ t.inflight = none ∧ t.cfg = s.cfg :=
  ⟨_, engineStep_of_inflight h, State.complete_inflight _ _, State.complete_cfg _ _⟩

/-- Settles O54: the second word finds IF full, or empty again after the engine's step. -/
theorem overrunHasTwoOutcomes : Obligations.OverrunHasTwoOutcomes := by
  rintro s w1 w2 _ _ hidle rfl rfl
  have hfirst := cmdWriteWhileIdleIsAccepted s w1 hidle
  have hfull := s.accept_inflight w1
  constructor
  · exact ⟨s.accept w1, _, hfirst, cmdWriteWhileBusyIsDropped (s.accept w1) _ w2 hfull, rfl, _, hfull, rfl⟩
  · obtain ⟨t, hstep, hempty, hcfg⟩ := exists_idle_of_engineStep hfull
    have hsecond : busAccess (.write (t.cfg.blockBase + 0x0004) 4 w2) t = .next (t.accept w2) :=
      cmdWriteWhileIdleIsAccepted t w2 hempty
    rw [hcfg] at hsecond
    exact ⟨s.accept w1, t, t.accept w2, hfirst, hstep, hsecond, _, t.accept_inflight w2, rfl⟩

end Sys2Proof.Machine
end
